-- ==== Sys2Proof/Word.lean ====
section
/-! DEFINITION. The word and the byte (00_scope.md R3, R4). -/
namespace Sys2Proof

/-- "An unsigned 32-bit integer. All arithmetic is modulo 2^32" (00_scope.md R3): a register, a memory
word, an instruction, a segment id, an offset, the program counter. -/
abbrev Word := BitVec 32

/-- The host byte, 8 bits wide (00_scope.md R4). -/
abbrev Byte := BitVec 8

end Sys2Proof
end

