-- ==== Sys2Proof/Syntax.lean ====
section
/-! DEFINITION. The instructions, one constructor per row of the opcode table (30_encoding.md R85). -/
namespace Sys2Proof

/-- A register index: "A register index is 3 bits wide and so always in [0, 7]" (30_encoding.md R88). -/
inductive Reg
  | r0 | r1 | r2 | r3 | r4 | r5 | r6 | r7
deriving DecidableEq, Repr

/-- The fourteen operations of 30_encoding.md R85. Each carries exactly the fields its opcode reads; the
fields it does not read are ignored by the decoder (R85, R87) and have no place here. -/
inductive Instr
  /-- CMOV rA, rB, rC (40_conditional_move.md R100) -/
  | cmov (a b c : Reg)
  /-- SLOAD rA, rB, rC (41_segment_load_store.md R110) -/
  | sload (a b c : Reg)
  /-- SSTORE rA, rB, rC (41_segment_load_store.md R111) -/
  | sstore (a b c : Reg)
  /-- ADD rA, rB, rC (42_arithmetic_logic.md R121) -/
  | add (a b c : Reg)
  /-- MUL rA, rB, rC (42_arithmetic_logic.md R122) -/
  | mul (a b c : Reg)
  /-- DIV rA, rB, rC (42_arithmetic_logic.md R123) -/
  | div (a b c : Reg)
  /-- NAND rA, rB, rC (42_arithmetic_logic.md R124) -/
  | nand (a b c : Reg)
  /-- HALT (43_halt.md R140) -/
  | halt
  /-- MAP rB, rC (44_segment_map_unmap.md R150) -/
  | map (b c : Reg)
  /-- UNMAP rC (44_segment_map_unmap.md R151) -/
  | unmap (c : Reg)
  /-- OUT rC (45_io.md R170) -/
  | out (c : Reg)
  /-- IN rC (45_io.md R171) -/
  | inp (c : Reg)
  /-- LOADP rB, rC (46_load_program.md R190) -/
  | loadp (b c : Reg)
  /-- LV rA, imm (47_load_value.md R210). The immediate is held as 30_encoding.md R92 decodes it,
  zero-extended to a word; that it fits 25 bits is `Instr.wellFormed`. -/
  | lv (a : Reg) (imm : Word)
deriving DecidableEq, Repr

end Sys2Proof
end

