-- ==== Sys2Proof/WellFormed.lean ====
section
/-! DEFINITION. When an instruction term is one that a word encodes. -/
namespace Sys2Proof

/-- "LV rA, imm: op 13, 0 <= imm <= 0x1FFFFFF" (30_encoding.md R95, R83): the immediate fits 25 bits. Every
other operand is a register, and a register cannot be out of range (R88). -/
def Instr.wellFormed : Instr → Bool
  | .lv _ imm => decide (imm.toNat < 2 ^ 25)
  | .cmov .. | .sload .. | .sstore .. | .add .. | .mul .. | .div .. | .nand .. => true
  | .halt | .map .. | .unmap .. | .out .. | .inp .. | .loadp .. => true

end Sys2Proof
end

