-- ==== Sys2Proof/Decode.lean ====
section
/-! DEFINITION. The decoder, "pure bit extraction" (30_encoding.md R88), and after it the encoder
(30_encoding.md R95). -/
namespace Sys2Proof

/-- Why a word is no instruction. -/
inductive DecodeRefusal
  /-- the opcode is 14 or 15 (30_encoding.md R86); the cycle raises ILLEGAL_OPCODE -/
  | illegalOpcode
deriving DecidableEq, Repr

/-- The register a 3-bit field selects (30_encoding.md R84). -/
def Reg.ofBits (b : BitVec 3) : Reg :=
  match b.toNat with
  | 0 => .r0
  | 1 => .r1
  | 2 => .r2
  | 3 => .r3
  | 4 => .r4
  | 5 => .r5
  | 6 => .r6
  | _ => .r7

/-- The 3-bit field that selects a register. -/
def Reg.toBits : Reg → BitVec 3
  | .r0 => 0#3
  | .r1 => 1#3
  | .r2 => 2#3
  | .r3 => 3#3
  | .r4 => 4#3
  | .r5 => 5#3
  | .r6 => 6#3
  | .r7 => 7#3

/-- The opcode, `w[31:28]` (30_encoding.md R81). -/
def opcodeField (w : Word) : BitVec 4 := w.extractLsb' 28 4

/-- Standard format, `A = w[8:6]` (30_encoding.md R82). -/
def fieldA (w : Word) : Reg := Reg.ofBits (w.extractLsb' 6 3)

/-- Standard format, `B = w[5:3]` (30_encoding.md R82). -/
def fieldB (w : Word) : Reg := Reg.ofBits (w.extractLsb' 3 3)

/-- Standard format, `C = w[2:0]` (30_encoding.md R82). -/
def fieldC (w : Word) : Reg := Reg.ofBits (w.extractLsb' 0 3)

/-- Load-value format, `A = w[27:25]` (30_encoding.md R83). -/
def fieldLvA (w : Word) : Reg := Reg.ofBits (w.extractLsb' 25 3)

/-- Load-value format, `imm = zext_32(w[24:0])` (30_encoding.md R83, R84). -/
def fieldImm (w : Word) : Word := (w.extractLsb' 0 25).zeroExtend 32

/-- Decode and dispatch on `w[31:28]` alone (30_encoding.md R85, R92, R93): opcodes 14 and 15 are no
instructions (R86), and every word of the opcodes 0 to 13 is one (R87). -/
def decode (w : Word) : Except DecodeRefusal Instr :=
  match (opcodeField w).toNat with
  | 0 => .ok (.cmov (fieldA w) (fieldB w) (fieldC w))
  | 1 => .ok (.sload (fieldA w) (fieldB w) (fieldC w))
  | 2 => .ok (.sstore (fieldA w) (fieldB w) (fieldC w))
  | 3 => .ok (.add (fieldA w) (fieldB w) (fieldC w))
  | 4 => .ok (.mul (fieldA w) (fieldB w) (fieldC w))
  | 5 => .ok (.div (fieldA w) (fieldB w) (fieldC w))
  | 6 => .ok (.nand (fieldA w) (fieldB w) (fieldC w))
  | 7 => .ok .halt
  | 8 => .ok (.map (fieldB w) (fieldC w))
  | 9 => .ok (.unmap (fieldC w))
  | 10 => .ok (.out (fieldC w))
  | 11 => .ok (.inp (fieldC w))
  | 12 => .ok (.loadp (fieldB w) (fieldC w))
  | 13 => .ok (.lv (fieldLvA w) (fieldImm w))
  | _ => .error .illegalOpcode

/-- The number of bits of one instruction (30_encoding.md R80). -/
def instrBits : Nat := 32

/-- The word whose low `nbits` bits are those of `w`, the rest 0: an instruction numbered as the opcode
table numbers it, bit 0 least significant. -/
def tableWord (nbits w : Nat) : Word := BitVec.ofNat instrBits (w % 2 ^ nbits)

/-- What the decoder reads from a row of the opcode table. A word is stored whole, so there is no byte
order to lay out (20_memory.md R53). -/
def decodeTableWord (nbits w : Nat) : Option Instr :=
  match decode (tableWord nbits w) with
  | .ok i => some i
  | .error _ => none

/-- Standard format with every ignored bit 0: `op * 2^28 + A * 2^6 + B * 2^3 + C` (30_encoding.md R82, R95). -/
def stdWord (op : BitVec 4) (a b c : BitVec 3) : Word := op ++ 0#19 ++ a ++ b ++ c

/-- Load-value format: `13 * 2^28 + A * 2^25 + imm` (30_encoding.md R83, R95). -/
def lvWord (a : BitVec 3) (imm : BitVec 25) : Word := 13#4 ++ a ++ imm

/-- The word of a well-formed instruction (30_encoding.md R95): "The assembler sets every ignored bit to 0".
Of an ill-formed LV it keeps the low 25 bits of the immediate (log entry 10). -/
def encode : Instr → Word
  | .cmov a b c => stdWord 0 a.toBits b.toBits c.toBits
  | .sload a b c => stdWord 1 a.toBits b.toBits c.toBits
  | .sstore a b c => stdWord 2 a.toBits b.toBits c.toBits
  | .add a b c => stdWord 3 a.toBits b.toBits c.toBits
  | .mul a b c => stdWord 4 a.toBits b.toBits c.toBits
  | .div a b c => stdWord 5 a.toBits b.toBits c.toBits
  | .nand a b c => stdWord 6 a.toBits b.toBits c.toBits
  | .halt => stdWord 7 0 0 0
  | .map b c => stdWord 8 0 b.toBits c.toBits
  | .unmap c => stdWord 9 0 0 c.toBits
  | .out c => stdWord 10 0 0 c.toBits
  | .inp c => stdWord 11 0 0 c.toBits
  | .loadp b c => stdWord 12 0 b.toBits c.toBits
  | .lv a imm => lvWord a.toBits (imm.truncate 25)

end Sys2Proof
end

