-- ==== Sys2Proof/Config.lean ====
section
/-! DEFINITION. What an implementation fixes: the parameters the spec leaves open (00_scope.md R5) and the
free values behind them. -/
namespace Sys2Proof

/-- FREE_PICK (00_scope.md R5, 20_memory.md R47): which id of a non-empty free list MAP reuses. -/
inductive FreePick
  /-- the reference value: the lowest end of the free list, its oldest entry -/
  | oldest
  /-- any element whatever: a draw at each MAP (`Config.freePick`) -/
  | drawn
deriving DecidableEq, Repr

/-- LOADP_OOR (00_scope.md R5, 30_encoding.md R90): what the end check does when the pc lies beyond the
end of segment 0. -/
inductive LoadpOor
  /-- the reference value: the run ends normally -/
  | endNormally
  /-- the end check raises PC_OUT_OF_RANGE -/
  | fatal
deriving DecidableEq, Repr

/-- The implementation parameters that the model "takes as an argument" (00_scope.md R5). They are fixed
for one block: State carries them and nothing ever writes them, so a statement about every state is a
statement about every value of every parameter (log entry 2). -/
structure Params where
  /-- FREE_PICK (20_memory.md R47) -/
  freePick : FreePick
  /-- FREE_LIST_HINT, the number of pre-populated free slots (70_reset_and_hazards.md R261) -/
  freeListHint : Nat
  /-- WORD_CAPACITY, the words of segment storage; none for an unbounded block (20_memory.md R45) -/
  wordCapacity : Option Nat
  /-- LOADP_OOR (30_encoding.md R90) -/
  loadpOor : LoadpOor
deriving DecidableEq, Repr

/-- The reference values of 00_scope.md R5, with WORD_CAPACITY "unbounded in the examples".
DESIGN CHOICE, unsafe for claims about runs from `State.reset` (log entry 2). -/
def Params.reference : Params :=
  { freePick := .oldest, freeListHint := 0, wordCapacity := none, loadpOor := .endNormally }

/-- The free value behind FREE_PICK = drawn (20_memory.md R47, "in any order"): the draw's number and the
free list give a number, of which the pick is the remainder modulo the list's length. It has no body, so
nothing can be proved of it (log entry 3). -/
opaque Config.freePick (draw : Nat) (freeList : List Word) : Nat

/-- The free value behind EXIT_FATAL, one less than it (60_exceptions.md R229; log entry 14). -/
opaque Config.exitFatalPred : Nat

/-- EXIT_FATAL: "the non-zero exit status reported for a fatal condition" (00_scope.md R5). -/
def Config.exitFatal : Nat := Config.exitFatalPred + 1

end Sys2Proof
end

