-- ==== Sys2Proof/Machine/State.lean ====
section
/-! DEFINITION. The architectural state (10_state.md) as plain data, the reasons to stop, and the state
after reset. -/
namespace Sys2Proof.Machine

/-- The register file: "exactly eight 32-bit registers" (10_state.md R20). -/
structure RegFile where
  x0 : Word
  x1 : Word
  x2 : Word
  x3 : Word
  x4 : Word
  x5 : Word
  x6 : Word
  x7 : Word
deriving DecidableEq, Repr

/-- A segment: "a contiguous sequence of N words (N ≥ 0)" (10_state.md R28). `cells` lists its non-zero
words by offset, offsets strictly rising; an unlisted offset below `len` holds 0, the value of every word
of a newly mapped segment (20_memory.md R46; log entry 1). -/
structure Segment where
  len : Nat
  cells : List (Nat × Word)
deriving DecidableEq, Repr

/-- The segment table (10_state.md R27): its length TL, and the mapped slots by id, ids strictly rising; an
unlisted id is Unmapped. -/
structure Memory where
  tableLen : Nat
  slots : List (Nat × Segment)
deriving DecidableEq, Repr

/-- STATUS, the run state (10_state.md R34). -/
inductive Status
  /-- 0, reset, no image loaded -/
  | idle
  /-- 1 -/
  | running
  /-- 2, HALT executed -/
  | halted
  /-- 3, the pc reached the end of segment 0 -/
  | ended
  /-- 4 -/
  | fatal
deriving DecidableEq, Repr

/-- CAUSE, the fatal causes (60_exceptions.md R221). -/
inductive Cause
  /-- 0, STATUS is not FATAL -/
  | none
  /-- 1, the fetched word has opcode 14 or 15 -/
  | illegalOpcode
  /-- 2, never raised by this block -/
  | registerIndex
  /-- 3, SLOAD, SSTORE or LOADP names an unmapped segment -/
  | unmappedSegment
  /-- 4, SLOAD or SSTORE names an offset not below the segment's length -/
  | offsetOutOfBounds
  /-- 5, UNMAP of segment 0 or of an unmapped id -/
  | badUnmap
  /-- 6, DIV by 0 -/
  | divideByZero
  /-- 7, OUT of a value above 255 -/
  | outputRange
  /-- 8, the host answers an IN with Fail -/
  | inputFailure
  /-- 9, the host answers an OUT with Fail -/
  | outputFailure
  /-- 10, storage or id space exhausted -/
  | resourceExhausted
  /-- 11, the image's byte count is wrong -/
  | invalidImage
  /-- 12, the end check with LOADP_OOR = fatal -/
  | pcOutOfRange
deriving DecidableEq, Repr

/-- The host's answer to one IN (20_memory.md R66). -/
inductive InAnswer
  | byte (b : Byte)
  | eof
  | fail
deriving DecidableEq, Repr

/-- The host's answer to one OUT (20_memory.md R65). -/
inductive OutAnswer
  | accept
  | fail
deriving DecidableEq, Repr

/-- The host's side of the interface of 20_memory.md R67: what the host has decided and the block has not
yet taken, and the bytes the host has accepted. The model's own fields (log entry 4). -/
structure HostPort where
  /-- the host asserts reset (70_reset_and_hazards.md R260) -/
  resetLine : Bool
  /-- the image the host offers (70_reset_and_hazards.md R261) -/
  image : Option (List Byte)
  /-- the answers to the INs to come, the next first (20_memory.md R66) -/
  inAnswers : List InAnswer
  /-- the answers to the OUTs to come, the next first (20_memory.md R65) -/
  outAnswers : List OutAnswer
  /-- the output stream, the oldest byte first (20_memory.md R65) -/
  output : List Byte
deriving DecidableEq, Repr

/-- The whole state: the block's (10_state.md), its parameters (00_scope.md R5), and the model's own
`draws` and `host`. -/
structure State where
  /-- x[0] .. x[7] (10_state.md R20) -/
  regs : RegFile
  /-- the program counter, a word offset in segment 0 (10_state.md R23) -/
  pc : Word
  /-- TL and the slots (10_state.md R27) -/
  mem : Memory
  /-- FL, the free list, its lowest end first (10_state.md R29) -/
  freeList : List Word
  /-- STATUS (10_state.md R34) -/
  status : Status
  /-- CAUSE (10_state.md R34) -/
  cause : Cause
  /-- the implementation parameters, which no step writes (00_scope.md R5) -/
  params : Params
  /-- the number of FREE_PICK draws made (20_memory.md R47; log entry 3) -/
  draws : Nat
  /-- the host's side of the interface (20_memory.md R67; log entry 4) -/
  host : HostPort
deriving DecidableEq, Repr

/-- Why a step has no next state. -/
inductive Fault
  /-- A cycle of a block whose STATUS is already FATAL, with its CAUSE: "A model treats the FATAL state as
  a fault: never final, never cleared by a later step" (60_exceptions.md R220). Raised by `step` alone.
  Safe: the spec gives the block no step there. -/
  | fatalStop (c : Cause)
deriving DecidableEq, Repr

/-- Why an instruction has no meaning. -/
inductive Refusal
  /-- The instruction is not modelled: raised by no arm of this model. Safe. -/
  | notModelled (mnemonic : String)
deriving DecidableEq, Repr

/-- All eight registers 0 (10_state.md R21). -/
def RegFile.zero : RegFile :=
  { x0 := 0, x1 := 0, x2 := 0, x3 := 0, x4 := 0, x5 := 0, x6 := 0, x7 := 0 }

/-- No slots: TL = 0 (70_reset_and_hazards.md R260). -/
def Memory.empty : Memory := { tableLen := 0, slots := [] }

/-- A host that has decided nothing: the model's own reset value (log entry 4). -/
def HostPort.quiet : HostPort :=
  { resetLine := false, image := none, inAnswers := [], outAnswers := [], output := [] }

/-- The block right after reset, for given parameters (70_reset_and_hazards.md R260, R262, first column),
with a host that has decided nothing. -/
def State.resetWith (p : Params) : State :=
  { regs := .zero, pc := 0, mem := .empty, freeList := [], status := .idle, cause := .none,
    params := p, draws := 0, host := .quiet }

/-- The block right after reset (70_reset_and_hazards.md R260, R262) with the reference parameters
(00_scope.md R5; log entry 2). -/
def State.reset : State := State.resetWith Params.reference

end Sys2Proof.Machine
end

