-- ==== Sys2Proof/Machine/Memory.lean ====
section
/-! DEFINITION. Segments and the segment table as sparse lists in one canonical form, and what each holds
(10_state.md R27, R28; 20_memory.md R40 to R52; log entry 1). -/
namespace Sys2Proof.Machine

/-! ### Sparse lists: pairs of a key and a value, keys strictly rising -/

/-- The value at a key. -/
def cellGet? {α : Type} : List (Nat × α) → Nat → Option α
  | [], _ => none
  | (k, v) :: rest, a => if k = a then some v else cellGet? rest a

/-- Put a value at a key, keeping the keys strictly rising. -/
def cellPut {α : Type} : List (Nat × α) → Nat → α → List (Nat × α)
  | [], a, v => [(a, v)]
  | (k, w) :: rest, a, v =>
    if a < k then (a, v) :: (k, w) :: rest
    else if a = k then (a, v) :: rest
    else (k, w) :: cellPut rest a v

/-- Take a key out. -/
def cellErase {α : Type} : List (Nat × α) → Nat → List (Nat × α)
  | [], _ => []
  | (k, w) :: rest, a => if k = a then rest else (k, w) :: cellErase rest a

/-- The keys are at least `lo` and strictly rising. -/
def cellsRising {α : Type} : Nat → List (Nat × α) → Bool
  | _, [] => true
  | lo, (k, _) :: rest => decide (lo ≤ k) && cellsRising (k + 1) rest

/-! ### Segments -/

/-- What an offset below the length holds; an unlisted one holds 0 (20_memory.md R46). -/
def Segment.read (g : Segment) (o : Nat) : Word := (cellGet? g.cells o).getD 0

/-- The segment with one word changed; a 0 is not listed, so equal segments are equal data. -/
def Segment.write (g : Segment) (o : Nat) (v : Word) : Segment :=
  { g with cells := if v = 0 then cellErase g.cells o else cellPut g.cells o v }

/-- "exactly n zero words" (20_memory.md R46). -/
def Segment.zeros (n : Nat) : Segment := { len := n, cells := [] }

/-- The cells of a word list whose first word stands at offset `o`. -/
def cellsOfWords : Nat → List Word → List (Nat × Word)
  | _, [] => []
  | o, w :: ws => if w = 0 then cellsOfWords (o + 1) ws else (o, w) :: cellsOfWords (o + 1) ws

/-- The segment that holds a word list at offsets 0, 1, 2, … (20_memory.md R54). -/
def Segment.ofWords (ws : List Word) : Segment := { len := ws.length, cells := cellsOfWords 0 ws }

/-- The canonical form of a segment: at most 2^32 - 1 words (10_state.md R27), offsets strictly rising and
below the length, no listed 0. -/
def Segment.wf (g : Segment) : Bool :=
  decide (g.len < 2 ^ 32) && cellsRising 0 g.cells &&
    g.cells.all (fun c => decide (c.1 < g.len) && decide (c.2 ≠ 0))

/-! ### The segment table -/

/-- The segment mapped at an id: none for an Unmapped slot and for "an id s >= TL", which "is treated
exactly like an Unmapped slot by every check" (10_state.md R27). -/
def Memory.slot? (m : Memory) (id : Nat) : Option Segment :=
  if id < m.tableLen then cellGet? m.slots id else none

/-- `len(s)`, of a mapped segment (00_scope.md R7). -/
def Memory.len? (m : Memory) (id : Nat) : Option Nat := (m.slot? id).map (·.len)

/-- `M[s, o]` (00_scope.md R7): the word at an offset below the length of a mapped segment. -/
def Memory.word? (m : Memory) (id o : Nat) : Option Word :=
  match m.slot? id with
  | some g => if o < g.len then some (g.read o) else none
  | none => none

/-- `slot[id] <- Mapped(g)`. -/
def Memory.setSlot (m : Memory) (id : Nat) (g : Segment) : Memory :=
  { m with slots := cellPut m.slots id g }

/-- `slot[id] <- Unmapped`. -/
def Memory.clearSlot (m : Memory) (id : Nat) : Memory :=
  { m with slots := cellErase m.slots id }

/-- `TL <- TL + 1` (20_memory.md R46). -/
def Memory.grow (m : Memory) : Memory := { m with tableLen := m.tableLen + 1 }

/-- The length of a listed slot, counted only below TL. -/
def slotLen (tableLen : Nat) (c : Nat × Segment) : Nat := if c.1 < tableLen then c.2.len else 0

/-- StorageUsed: "sum of len(s) over every s < TL with slot[s] Mapped" (20_memory.md R45). -/
def Memory.storageUsed (m : Memory) : Nat := (m.slots.map (slotLen m.tableLen)).sum

/-- The canonical form of the segment table: TL at most 2^32 (10_state.md R27), ids strictly rising and
below TL, every segment in its canonical form. -/
def Memory.wf (m : Memory) : Bool :=
  decide (m.tableLen ≤ 2 ^ 32) && cellsRising 0 m.slots &&
    m.slots.all (fun c => decide (c.1 < m.tableLen) && c.2.wf)

end Sys2Proof.Machine
end

