-- ==== Sys2Proof/Machine/Operands.lean ====
section
/-! DEFINITION. The one operand form, a register (30_encoding.md R84), and the values the formats make of
it. -/
namespace Sys2Proof.Machine

/-- The value of a register (00_scope.md R6). -/
def RegFile.get (f : RegFile) : Reg → Word
  | .r0 => f.x0
  | .r1 => f.x1
  | .r2 => f.x2
  | .r3 => f.x3
  | .r4 => f.x4
  | .r5 => f.x5
  | .r6 => f.x6
  | .r7 => f.x7

/-- The register file with one register written (00_scope.md R6); register 0 is an ordinary register
(10_state.md R20). -/
def RegFile.set (f : RegFile) (r : Reg) (v : Word) : RegFile :=
  match r with
  | .r0 => { f with x0 := v }
  | .r1 => { f with x1 := v }
  | .r2 => { f with x2 := v }
  | .r3 => { f with x3 := v }
  | .r4 => { f with x4 := v }
  | .r5 => { f with x5 := v }
  | .r6 => { f with x6 := v }
  | .r7 => { f with x7 := v }

/-- `x[i]` (00_scope.md R6). -/
def State.reg (s : State) (r : Reg) : Word := s.regs.get r

/-- `x[i] <- v` (00_scope.md R6). -/
def State.setReg (s : State) (r : Reg) (v : Word) : State := { s with regs := s.regs.set r v }

/-- `zext_32(b)` of a host byte (45_io.md R171). -/
def wordOfByte (b : Byte) : Word := b.zeroExtend 32

/-- The low 8 bits of a register's value, the byte OUT offers (20_memory.md R53, R56). -/
def byteOfWord (w : Word) : Byte := w.truncate 8

/-- The word IN delivers at EOF, "2^32 − 1" (00_scope.md R4, 45_io.md R171). -/
def eofWord : Word := BitVec.allOnes 32

/-- A word from its image bytes, the first "being the most significant byte" (20_memory.md R54). -/
def wordOfBytes (b0 b1 b2 b3 : Byte) : Word := b0 ++ b1 ++ b2 ++ b3

/-- The words of an image, four bytes each (20_memory.md R54). -/
def imageWords : List Byte → List Word
  | b0 :: b1 :: b2 :: b3 :: rest => wordOfBytes b0 b1 b2 b3 :: imageWords rest
  | _ => []

end Sys2Proof.Machine
end

