-- ==== Sys2Proof/Machine/Ops.lean ====
section
/-! DEFINITION. The operations the meanings share: the fatal condition, the word accesses, the allocator
and the byte streams (00_scope.md R9 to R13, 20_memory.md). -/
namespace Sys2Proof.Machine

/-- What one step of this machine answers. -/
abbrev Result := Host.Outcome State Fault Refusal

/-- `pc <- target` (00_scope.md R13). -/
def State.setPc (s : State) (t : Word) : State := { s with pc := t }

/-- The state with another segment table. -/
def State.setMem (s : State) (m : Memory) : State := { s with mem := m }

/-- The state with another free list. -/
def State.setFreeList (s : State) (fl : List Word) : State := { s with freeList := fl }

/-- `STATUS <- x`. -/
def State.setStatus (s : State) (x : Status) : State := { s with status := x }

/-- One FREE_PICK draw made (log entry 3). -/
def State.countDraw (s : State) : State := { s with draws := s.draws + 1 }

/-- The state with another host port. -/
def State.setHost (s : State) (h : HostPort) : State := { s with host := h }

/-! ### The fatal condition -/

/-- `STATUS <- FATAL; CAUSE <- code`, and nothing else (60_exceptions.md R220, R223). -/
def State.toFatal (s : State) (c : Cause) : State := { s with status := .fatal, cause := c }

/-- `raise Fatal(cause)` (00_scope.md R12): the instruction writes nothing, and the frozen state is the
state after the fetch's increment (60_exceptions.md R224). It is taken as a next state; there is no return
from it (60_exceptions.md R228), and the cycle after it is the fault (log entry 5). -/
def raiseFatal (c : Cause) (s : State) : Result := .next (s.toFatal c)

/-- An operation's outcome as a step from `s`: its result, or the fatal condition it raises in `s`. -/
def orFatal (s : State) : Except Cause State → Result
  | .ok t => .next t
  | .error c => raiseFatal c s

/-! ### Word accesses -/

/-- `SegRead(s, o)` (20_memory.md R42): the mapped check first, then the bounds check (R44). -/
def segRead (s : State) (seg off : Word) : Except Cause Word :=
  match s.mem.slot? seg.toNat with
  | none => .error .unmappedSegment
  | some g => if off.toNat < g.len then .ok (g.read off.toNat) else .error .offsetOutOfBounds

/-- `SegWrite(s, o, v)` (20_memory.md R43). -/
def segWrite (s : State) (seg off v : Word) : Except Cause State :=
  match s.mem.slot? seg.toNat with
  | none => .error .unmappedSegment
  | some g =>
    if off.toNat < g.len then .ok (s.setMem (s.mem.setSlot seg.toNat (g.write off.toNat v)))
    else .error .offsetOutOfBounds

/-! ### The allocator -/

/-- A request for that many words in all is within WORD_CAPACITY (20_memory.md R45). -/
def fits (p : Params) (words : Nat) : Bool :=
  match p.wordCapacity with
  | none => true
  | some c => decide (words ≤ c)

/-- FREE_PICK as a position in the free list (20_memory.md R47; log entry 3). -/
def pickIndex (s : State) : Nat :=
  match s.params.freePick with
  | .oldest => 0
  | .drawn => Config.freePick s.draws s.freeList % s.freeList.length

/-- `SegMap(n)` (20_memory.md R46): reuse the picked id of a non-empty free list, else take the fresh id
TL, unless all 2^32 ids exist (R48). -/
def segMap (s : State) (n : Word) : Except Cause (Word × State) :=
  if fits s.params (s.mem.storageUsed + n.toNat) then
    match s.freeList[pickIndex s]? with
    | some id =>
      .ok (id, ((s.setMem (s.mem.setSlot id.toNat (Segment.zeros n.toNat))).setFreeList
        (s.freeList.eraseIdx (pickIndex s))).countDraw)
    | none =>
      if s.mem.tableLen < 2 ^ 32 then
        .ok (BitVec.ofNat 32 s.mem.tableLen,
          s.setMem (s.mem.grow.setSlot s.mem.tableLen (Segment.zeros n.toNat)))
      else .error .resourceExhausted
  else .error .resourceExhausted

/-- `SegUnmap(id)` (20_memory.md R51): the released id is "appended at the high end". -/
def segUnmap (s : State) (id : Word) : Except Cause State :=
  if id = 0 then .error .badUnmap
  else
    match s.mem.slot? id.toNat with
    | none => .error .badUnmap
    | some _ => .ok ((s.setMem (s.mem.clearSlot id.toNat)).setFreeList (s.freeList ++ [id]))

/-- `SegReplaceZero(id)` (20_memory.md R52): a deep copy, since segments are values. -/
def segReplaceZero (s : State) (id : Word) : Except Cause State :=
  match s.mem.slot? id.toNat with
  | none => .error .unmappedSegment
  | some g =>
    if fits s.params (s.mem.storageUsed - (s.mem.len? 0).getD 0 + g.len) then
      .ok (s.setMem (s.mem.setSlot 0 g))
    else .error .resourceExhausted

/-! ### The byte streams -/

/-- A cycle in which the block "holds (takes no step)" (20_memory.md R65, R66): the fetch's increment is
taken back, so that the state is the one before the cycle (95_test_vectors.md IO7; log entry 6). -/
def holdCycle (s : State) : Result := .next (s.setPc (s.pc - 1))

/-- `HostOut(b)` (20_memory.md R65): "Accept completes the transfer: the byte is appended to the output
stream"; Fail raises OUTPUT_FAILURE. -/
def hostOut (s : State) (b : Byte) : Result :=
  match s.host.outAnswers with
  | [] => holdCycle s
  | .accept :: rest =>
    .next (s.setHost { s.host with outAnswers := rest, output := s.host.output ++ [b] })
  | .fail :: rest => raiseFatal .outputFailure (s.setHost { s.host with outAnswers := rest })

/-- `HostIn()` into a register (20_memory.md R66, 45_io.md R171). -/
def hostIn (s : State) (r : Reg) : Result :=
  match s.host.inAnswers with
  | [] => holdCycle s
  | .byte b :: rest => .next ((s.setHost { s.host with inAnswers := rest }).setReg r (wordOfByte b))
  | .eof :: rest => .next ((s.setHost { s.host with inAnswers := rest }).setReg r eofWord)
  | .fail :: rest => raiseFatal .inputFailure (s.setHost { s.host with inAnswers := rest })

end Sys2Proof.Machine
end

