-- ==== Sys2Proof/Machine/Boot.lean ====
section
/-! DEFINITION. The host transactions that are not part of a cycle: reset and image load
(70_reset_and_hazards.md R260, R261). -/
namespace Sys2Proof.Machine

/-- Reset (70_reset_and_hazards.md R260): all of the block's state at its reset value. The parameters are
the implementation's; of the host's side only the reset line is taken back (log entry 11). -/
def resetBlock (s : State) : State :=
  { State.resetWith s.params with draws := s.draws, host := { s.host with resetLine := false } }

/-- The ids of the pre-populated null slots, `[1, 2, ..., TL-1]` (70_reset_and_hazards.md R261). -/
def hintIds (hint : Nat) : List Word := (List.range (hint - 1)).map fun k => BitVec.ofNat 32 (k + 1)

/-- The segment table of a loaded image: `TL = max(1, FREE_LIST_HINT)`, segment 0 the image's words, every
other slot Unmapped (70_reset_and_hazards.md R261). -/
def imageMemory (hint : Nat) (bytes : List Byte) : Memory :=
  { tableLen := max 1 hint, slots := [(0, Segment.ofWords (imageWords bytes))] }

/-- `LoadImage(bytes)` (70_reset_and_hazards.md R261), in IDLE. -/
def loadImage (s : State) (bytes : List Byte) : State :=
  if bytes.length % 4 ≠ 0 ∨ 2 ^ 32 - 1 < bytes.length / 4 then s.toFatal .invalidImage
  else if fits s.params (bytes.length / 4) then
    { s with
      regs := .zero, pc := 0, mem := imageMemory s.params.freeListHint bytes,
      freeList := hintIds s.params.freeListHint, status := .running, cause := .none }
  else s.toFatal .resourceExhausted

/-- The host's offer is used up. -/
def State.dropImage (s : State) : State := s.setHost { s.host with image := none }

/-- The block takes the host's offer: "accepted only in IDLE (in any other STATUS the host's image is
refused and nothing changes)" (70_reset_and_hazards.md R261; log entry 12). -/
def takeImage (s : State) (bytes : List Byte) : State :=
  match s.status with
  | .idle => loadImage s.dropImage bytes
  | .running => s.dropImage
  | .halted => s.dropImage
  | .ended => s.dropImage
  | .fatal => s.dropImage

end Sys2Proof.Machine
end

