-- ==== Sys2Proof/Machine/Allocation.lean ====
section
/-! DEFINITION. MAP and UNMAP (44_segment_map_unmap.md). -/
namespace Sys2Proof.Machine

/-- `n <- x[C]; id <- SegMap(n); x[B] <- id` (44_segment_map_unmap.md R150). -/
def execMap (b c : Reg) (s : State) : Result :=
  orFatal s ((segMap s (s.reg c)).map fun r => r.2.setReg b r.1)

/-- `SegUnmap(x[C])` (44_segment_map_unmap.md R151). -/
def execUnmap (c : Reg) (s : State) : Result :=
  orFatal s (segUnmap s (s.reg c))

end Sys2Proof.Machine
end

