-- ==== Sys2Proof/Machine/Arith.lean ====
section
/-! DEFINITION. ADD, MUL, DIV and NAND (42_arithmetic_logic.md). -/
namespace Sys2Proof.Machine

/-- `x[A] <- (x[B] + x[C]) mod 2^32` (42_arithmetic_logic.md R121). -/
def execAdd (a b c : Reg) (s : State) : Result :=
  .next (s.setReg a (BitVec.ofNat 32 ((s.reg b).toNat + (s.reg c).toNat)))

/-- `x[A] <- (x[B] * x[C]) mod 2^32` (42_arithmetic_logic.md R122). -/
def execMul (a b c : Reg) (s : State) : Result :=
  .next (s.setReg a (BitVec.ofNat 32 ((s.reg b).toNat * (s.reg c).toNat)))

/-- "fatal if r[C] = 0; else r[A] ← ⌊r[B] / r[C]⌋" (42_arithmetic_logic.md R123). -/
def execDiv (a b c : Reg) (s : State) : Result :=
  if s.reg c = 0 then raiseFatal .divideByZero s
  else .next (s.setReg a (BitVec.ofNat 32 ((s.reg b).toNat / (s.reg c).toNat)))

/-- `x[A] <- ~(x[B] & x[C])` (42_arithmetic_logic.md R124). -/
def execNand (a b c : Reg) (s : State) : Result :=
  .next (s.setReg a (~~~(s.reg b &&& s.reg c)))

end Sys2Proof.Machine
end

