-- ==== Sys2Proof/Machine/ByteIO.lean ====
section
/-! DEFINITION. OUT and IN (45_io.md). -/
namespace Sys2Proof.Machine

/-- "emit byte r[C] to host output; fatal if r[C] > 255", the range "checked before anything is offered"
(45_io.md R170). -/
def execOut (c : Reg) (s : State) : Result :=
  if 255 < (s.reg c).toNat then raiseFatal .outputRange s else hostOut s (byteOfWord (s.reg c))

/-- "read one byte from host input; on EOF r[C] ← 2^32 − 1, otherwise r[C] ← the byte" (45_io.md R171). -/
def execIn (c : Reg) (s : State) : Result := hostIn s c

end Sys2Proof.Machine
end

