-- ==== Sys2Proof/Machine/CondMove.lean ====
section
/-! DEFINITION. CMOV (40_conditional_move.md). -/
namespace Sys2Proof.Machine

/-- "if r[C] ≠ 0 then r[A] ← r[B]" (40_conditional_move.md R100). -/
def execCmov (a b c : Reg) (s : State) : Result :=
  if s.reg c = 0 then .next s else .next (s.setReg a (s.reg b))

end Sys2Proof.Machine
end

