-- ==== Sys2Proof/Machine/Halt.lean ====
section
/-! DEFINITION. HALT (43_halt.md). -/
namespace Sys2Proof.Machine

/-- `STATUS <- HALTED; stop` (43_halt.md R140); "releasing all VM resources" has "no architectural effect". -/
def execHalt (s : State) : Result := .next (s.setStatus .halted)

end Sys2Proof.Machine
end

