-- ==== Sys2Proof/Machine/LoadProgram.lean ====
section
/-! DEFINITION. LOADP (46_load_program.md). -/
namespace Sys2Proof.Machine

/-- "if r[B] ≠ 0: replace segment 0 with a deep copy of segment r[B]; then set program counter to r[C]"
(46_load_program.md R190); with `x[B] = 0` "no segment copy is performed" (R191). -/
def execLoadp (b c : Reg) (s : State) : Result :=
  if s.reg b = 0 then .next (s.setPc (s.reg c))
  else orFatal s ((segReplaceZero s (s.reg b)).map fun t => t.setPc (s.reg c))

end Sys2Proof.Machine
end

