-- ==== Sys2Proof/Machine/LoadValue.lean ====
section
/-! DEFINITION. LV (47_load_value.md). -/
namespace Sys2Proof.Machine

/-- `x[A] <- zext_32(w[24:0])` (47_load_value.md R210); the decoder has zero-extended the immediate
(30_encoding.md R92). -/
def execLv (a : Reg) (imm : Word) (s : State) : Result := .next (s.setReg a imm)

end Sys2Proof.Machine
end

