-- ==== Sys2Proof/Machine/SegmentAccess.lean ====
section
/-! DEFINITION. SLOAD and SSTORE (41_segment_load_store.md). -/
namespace Sys2Proof.Machine

/-- "r[A] ← M[r[B], r[C]]" (41_segment_load_store.md R110). -/
def execSload (a b c : Reg) (s : State) : Result :=
  orFatal s ((segRead s (s.reg b) (s.reg c)).map (s.setReg a))

/-- "M[r[A], r[B]] ← r[C]" (41_segment_load_store.md R111). -/
def execSstore (a b c : Reg) (s : State) : Result :=
  orFatal s (segWrite s (s.reg a) (s.reg b) (s.reg c))

end Sys2Proof.Machine
end

