-- ==== Sys2Proof/Machine/Fetch.lean ====
section
/-! DEFINITION. The end check and the fetch, the first half of a cycle (30_encoding.md R90, R91). -/
namespace Sys2Proof.Machine

/-- The end check (30_encoding.md R90): the state the run ends in, if it ends here. A RUNNING block always
has a segment 0 (10_state.md R35 (3)); without one there is no end to check, and the fetch raises the
fatal condition of `segRead` (log entry 8). -/
def endCheck (s : State) : Option State :=
  match s.mem.len? 0 with
  | none => none
  | some n =>
    if n ≤ s.pc.toNat then
      if n < s.pc.toNat ∧ s.params.loadpOor = .fatal then some (s.toFatal .pcOutOfRange)
      else some (s.setStatus .ended)
    else none

/-- `w <- SegRead(0, pc)` (30_encoding.md R91). -/
def fetchWord (s : State) : Except Cause Word := segRead s 0 s.pc

/-- `pc <- pc + 1`, before dispatch (30_encoding.md R91). -/
def advancePc (s : State) : State := s.setPc (s.pc + 1)

/-- "In IDLE the block waits for an image"; in HALTED and ENDED "it takes no step at all and its state
stays as it was" (30_encoding.md R89; log entry 7). -/
def restingStep (s : State) : Result := .next s

/-- A cycle of a FATAL block: "A model treats the FATAL state as a fault" (60_exceptions.md R220). -/
def fatalStep (s : State) : Result := .fault (.fatalStop s.cause)

end Sys2Proof.Machine
end

