-- ==== Sys2Proof/Machine/Step.lean ====
section
/-! DEFINITION. One step: a host transaction if one is pending, else one cycle of a RUNNING block
(30_encoding.md R89 to R94). -/
namespace Sys2Proof.Machine

/-- One pass of the fetch-decode-execute loop (30_encoding.md R90 to R93). -/
def cycle (s : State) : Host.Outcome State Fault Refusal :=
  match endCheck s with
  | some t => .next t
  | none =>
    match fetchWord s with
    | .error c => raiseFatal c s
    | .ok w =>
      match decode w with
      | .error .illegalOpcode => raiseFatal .illegalOpcode (advancePc s)
      | .ok i => exec i (advancePc s)

/-- One step. Reset comes before everything (70_reset_and_hazards.md R260), a pending image offer next
(R261), and then what STATUS allows (30_encoding.md R89). -/
def step (s : State) : Host.Outcome State Fault Refusal :=
  if s.host.resetLine then .next (resetBlock s)
  else
    match s.host.image with
    | some bytes => .next (takeImage s bytes)
    | none =>
      match s.status with
      | .idle => restingStep s
      | .running => cycle s
      | .halted => restingStep s
      | .ended => restingStep s
      | .fatal => fatalStep s

/-- Segment 0, made long enough to hold offset `o`, with the word there. -/
def programWith (m : Memory) (o : Nat) (w : Word) : Segment :=
  Segment.write { (m.slot? 0).getD (Segment.zeros 0) with
    len := max (o + 1) ((m.len? 0).getD 0) } o w

/-- The state with an instruction at `M[0, pc]`, RUNNING, no host transaction pending: what an image load
leaves (log entry 9), so that the next step fetches and runs exactly that instruction. -/
def State.withFetchWord (s : State) (nbits w : Nat) : State :=
  { s with
    mem := Memory.setSlot { s.mem with tableLen := max 1 s.mem.tableLen } 0
      (programWith s.mem s.pc.toNat (tableWord nbits w)),
    status := .running,
    host := { s.host with resetLine := false, image := none } }

end Sys2Proof.Machine
end

