-- ==== Sys2Proof/Machine/Flags.lean ====
section
/-! DEFINITION. There are no condition codes and no flags (10_state.md R33); what the host sees of the run
is STATUS and CAUSE (10_state.md R34, 60_exceptions.md R221) and the success or failure they stand for
(60_exceptions.md R229). -/
namespace Sys2Proof.Machine

/-- STATUS as the host reads it, 3 bits (10_state.md R34). -/
def Status.code : Status → BitVec 3
  | .idle => 0#3
  | .running => 1#3
  | .halted => 2#3
  | .ended => 3#3
  | .fatal => 4#3

/-- CAUSE as the host reads it, 4 bits (10_state.md R34, 60_exceptions.md R221). -/
def Cause.code : Cause → BitVec 4
  | .none => 0#4
  | .illegalOpcode => 1#4
  | .registerIndex => 2#4
  | .unmappedSegment => 3#4
  | .offsetOutOfBounds => 4#4
  | .badUnmap => 5#4
  | .divideByZero => 6#4
  | .outputRange => 7#4
  | .inputFailure => 8#4
  | .outputFailure => 9#4
  | .resourceExhausted => 10#4
  | .invalidImage => 11#4
  | .pcOutOfRange => 12#4

/-- The exit status a run's end reaches the host with: 0 for HALTED and ENDED, EXIT_FATAL for FATAL, none
for a run that has not ended (60_exceptions.md R229). -/
def State.exitStatus? (s : State) : Option Nat :=
  match s.status with
  | .idle => none
  | .running => none
  | .halted => some 0
  | .ended => some 0
  | .fatal => some Config.exitFatal

end Sys2Proof.Machine
end

