-- ==== Sys2Proof/Safety.lean ====
section
/-! DEFINITION. The terms the statements are written in: what a step leaves unchanged, what a fatal
condition leaves, the invariant of the block, and what counts as a safe run. -/
namespace Sys2Proof.Machine

/-- The segment table is unchanged as seen through its own reads: TL, every segment's length, every word of
every segment (00_scope.md R7). -/
def SameMemory (s t : State) : Prop :=
  t.mem.tableLen = s.mem.tableLen ∧ (∀ id, t.mem.len? id = s.mem.len? id) ∧
    ∀ id o, t.mem.word? id o = s.mem.word? id o

/-- The free list, and with it the number of draws made from it, is unchanged. -/
def SameFreeList (s t : State) : Prop := t.freeList = s.freeList ∧ t.draws = s.draws

/-- STATUS, CAUSE and the parameters are unchanged. -/
def SameControl (s t : State) : Prop :=
  t.status = s.status ∧ t.cause = s.cause ∧ t.params = s.params

/-- Every register but those that satisfy `written` is unchanged. -/
def SameRegsBut (written : Reg → Prop) (s t : State) : Prop :=
  ∀ r, ¬ written r → t.reg r = s.reg r

/-- Only one register may differ: the frame of an instruction that writes a register and nothing else. -/
def OnlyRegister (a : Reg) (s t : State) : Prop :=
  SameRegsBut (· = a) s t ∧ t.pc = s.pc ∧ SameMemory s t ∧ SameFreeList s t ∧ SameControl s t ∧ t.host = s.host

/-- Every segment but one is unchanged in its length and in every word. -/
def SameSegmentsBut (id : Nat) (s t : State) : Prop :=
  ∀ id', id' ≠ id → t.mem.len? id' = s.mem.len? id' ∧ ∀ o, t.mem.word? id' o = s.mem.word? id' o

/-- Segment `id` of `t` holds what segment `id'` of `s` holds: the same length, the same words. -/
def CopiedSegment (id' : Nat) (s : State) (id : Nat) (t : State) : Prop :=
  t.mem.len? id = s.mem.len? id' ∧ ∀ o, t.mem.word? id o = s.mem.word? id' o

/-- "the set of ids MAP can hand out next, set(FL) ∪ (s : s >= TL)" (44_segment_map_unmap.md R152). -/
def State.available (s : State) (id : Word) : Prop := id ∈ s.freeList ∨ s.mem.tableLen ≤ id.toNat

/-- Every word whose `w[31:28]` is `op` decodes to the instruction its standard-format fields A = w[8:6],
B = w[5:3], C = w[2:0] name, whatever its other bits (30_encoding.md R82, R85, R92). -/
def DecodesStandard (op : Nat) (i : Reg → Reg → Reg → Instr) : Prop :=
  ∀ w : Word, (w.extractLsb' 28 4).toNat = op → decode w = .ok
    (i (Reg.ofBits (w.extractLsb' 6 3)) (Reg.ofBits (w.extractLsb' 3 3)) (Reg.ofBits (w.extractLsb' 0 3)))

/-- The bits of an instruction's word that its opcode reads (30_encoding.md R82, R83, R85); the others are
ignored (R87). -/
def usedBits : Instr → Word
  | .cmov .. | .sload .. | .sstore .. | .add .. | .mul .. | .div .. | .nand .. => 0xF00001FF
  | .halt => 0xF0000000
  | .map .. | .loadp .. => 0xF000003F
  | .unmap .. | .out .. | .inp .. => 0xF0000007
  | .lv .. => 0xFFFFFFFF

/-- The register an instruction writes, if it writes one (10_state.md R20). -/
def destination : Instr → Option Reg
  | .cmov a _ _ | .sload a _ _ | .add a _ _ | .mul a _ _ | .div a _ _ | .nand a _ _ | .lv a _ => some a
  | .map b _ => some b
  | .inp c => some c
  | .sstore .. | .halt | .unmap .. | .out .. | .loadp .. => none

/-- The state a fatal condition leaves (00_scope.md R12, 60_exceptions.md R220, R223, R224): STATUS is FATAL,
CAUSE is the code, and no register, no word, no segment-table entry, no free-list entry, nothing of the
host's side and not the pc differs from `s`. -/
def FrozenWith (c : Cause) (s t : State) : Prop :=
  t.status = .fatal ∧ t.cause = c ∧ t.params = s.params ∧ t.pc = s.pc ∧
    SameRegsBut (fun _ => False) s t ∧ SameMemory s t ∧ SameFreeList s t ∧ t.host = s.host

/-- A cycle runs at this step: STATUS is RUNNING and the host has neither reset nor image pending
(30_encoding.md R89, 20_memory.md R67). -/
def State.cycling (s : State) : Prop :=
  s.status = .running ∧ s.host.resetLine = false ∧ s.host.image = none

/-- The next cycle fetches word `w`: the pc is below the length of segment 0 and the word there is `w`
(30_encoding.md R90, R91). -/
def State.fetches (s : State) (w : Word) : Prop :=
  s.cycling ∧ s.mem.word? 0 s.pc.toNat = some w

/-- What holds of the block in every state a run reaches (10_state.md R27, R29, R30, R34, R35;
70_reset_and_hazards.md R262), with the canonical form of its memory. -/
structure State.Inv (s : State) : Prop where
  /-- the segment table is canonical: TL at most 2^32, every segment below 2^32 words (R27) -/
  memWf : s.mem.wf = true
  /-- "each id in it is < TL" (R29) -/
  freeBelow : ∀ id ∈ s.freeList, id.toNat < s.mem.tableLen
  /-- the free list "holds no duplicates" (R29) -/
  freeNodup : s.freeList.Nodup
  /-- "for every id s < TL, slot[s] = Unmapped if and only if s is in FL" (R30) -/
  agreement : ∀ id : Word, id.toNat < s.mem.tableLen → (s.mem.slot? id.toNat = none ↔ id ∈ s.freeList)
  /-- while STATUS = RUNNING, "slot[0] is Mapped" (R35) -/
  zeroMapped : s.status = .running → s.mem.slot? 0 ≠ none
  /-- CAUSE is "0 when STATUS is not FATAL", and names a cause when it is (R34) -/
  causeIffFatal : s.cause ≠ .none ↔ s.status = .fatal
  /-- in IDLE every piece of state has its reset value (R262) -/
  idleClear : s.status = .idle → s.regs = .zero ∧ s.pc = 0 ∧ s.mem = .empty ∧ s.freeList = []
  /-- the parameter FREE_LIST_HINT is a possible table length (R27, 70_reset_and_hazards.md R261) -/
  hintBound : s.params.freeListHint ≤ 2 ^ 32

/-- The allocator of a RUNNING block is as the image load left it (70_reset_and_hazards.md R261): only id 0 is
mapped, TL is max(1, FREE_LIST_HINT) and the free list is 1, 2, ..., TL - 1. -/
def State.asLoaded (s : State) : Prop :=
  s.status = .running ∧ (∀ id, s.mem.len? id ≠ none ↔ id = 0) ∧
    s.mem.tableLen = max 1 s.params.freeListHint ∧
    s.freeList = (List.range (s.params.freeListHint - 1)).map fun k => BitVec.ofNat 32 (k + 1)

/-- The next cycle executes an IN, or an OUT of at most 255, that the host has not answered
(30_encoding.md R89, 20_memory.md R65, R66). -/
def State.awaitsHost (s : State) : Prop :=
  ∃ w c, s.fetches w ∧
    ((decode w = .ok (.inp c) ∧ s.host.inAnswers = []) ∨
      (decode w = .ok (.out c) ∧ (s.reg c).toNat ≤ 255 ∧ s.host.outAnswers = []))

/-- The storage in use is within WORD_CAPACITY (20_memory.md R45). -/
def State.withinCapacity (s : State) : Prop := fits s.params s.mem.storageUsed = true

/-- The run has not failed: "a fatal condition: STATUS = FATAL, failure" (60_exceptions.md R229). -/
def State.safe (s : State) : Prop := s.status ≠ .fatal

/-- The run has ended with success: HALT or the end of segment 0 (60_exceptions.md R229). -/
def State.succeeded (s : State) : Prop := s.status = .halted ∨ s.status = .ended

end Sys2Proof.Machine
end

