-- ==== Sys2Proof/Certificates/Slice0/Obligations.lean ====
section
/-! DEFINITION. The statements for the provers, in the order of spec/: encoding, the instructions, the
cycle and its endings, reset and image load, and what holds of the whole machine. An instruction's `s` is the
state after the fetch's increment (00_scope.md R13). -/

open Sys2Proof Sys2Proof.Machine

/-! ### Encoding -/

/-- For every well-formed instruction, decoding its word gives it back (30_encoding.md R92, R95). -/
def Obligations.DecodeOfEncodeIsIdentity : Prop :=
  ∀ i : Instr, i.wellFormed = true → decode (encode i) = .ok i

/-- What a word decodes to is well-formed, and its own word is that word with the ignored bits clear
(30_encoding.md R85, R87, R95). -/
def Obligations.EncodeOfDecodeClearsIgnoredBits : Prop :=
  ∀ (w : Word) (i : Instr), decode w = .ok i → i.wellFormed = true ∧ encode i = w &&& usedBits i

/-- R87: the ignored bits change nothing: a word decodes as the same word with them clear, and every word
of the opcodes 0 to 13 is legal. -/
def Obligations.IgnoredBitsDoNotMatter : Prop :=
  (∀ (w v : Word) (i : Instr), decode w = .ok i → v &&& usedBits i = w &&& usedBits i → decode v = .ok i) ∧
    ∀ w : Word, (w.extractLsb' 28 4).toNat ≤ 13 → ∃ i, decode w = .ok i

/-- R95's numbers: standard `op * 2^28 + A * 2^6 + B * 2^3 + C`, load-value `13 * 2^28 + A * 2^25 + imm`. -/
def Obligations.EncodingsAsNumbers : Prop :=
  ∀ (a b c : Reg) (imm : Word), imm.toNat < 2 ^ 25 →
    (encode (.cmov a b c)).toNat = 0 * 2 ^ 28 + a.toBits.toNat * 2 ^ 6 + b.toBits.toNat * 2 ^ 3 + c.toBits.toNat ∧
    (encode (.sload a b c)).toNat = 1 * 2 ^ 28 + a.toBits.toNat * 2 ^ 6 + b.toBits.toNat * 2 ^ 3 + c.toBits.toNat ∧
    (encode (.sstore a b c)).toNat = 2 * 2 ^ 28 + a.toBits.toNat * 2 ^ 6 + b.toBits.toNat * 2 ^ 3 + c.toBits.toNat ∧
    (encode (.add a b c)).toNat = 3 * 2 ^ 28 + a.toBits.toNat * 2 ^ 6 + b.toBits.toNat * 2 ^ 3 + c.toBits.toNat ∧
    (encode (.mul a b c)).toNat = 4 * 2 ^ 28 + a.toBits.toNat * 2 ^ 6 + b.toBits.toNat * 2 ^ 3 + c.toBits.toNat ∧
    (encode (.div a b c)).toNat = 5 * 2 ^ 28 + a.toBits.toNat * 2 ^ 6 + b.toBits.toNat * 2 ^ 3 + c.toBits.toNat ∧
    (encode (.nand a b c)).toNat = 6 * 2 ^ 28 + a.toBits.toNat * 2 ^ 6 + b.toBits.toNat * 2 ^ 3 + c.toBits.toNat ∧
    (encode .halt).toNat = 7 * 2 ^ 28 ∧
    (encode (.map b c)).toNat = 8 * 2 ^ 28 + b.toBits.toNat * 2 ^ 3 + c.toBits.toNat ∧
    (encode (.unmap c)).toNat = 9 * 2 ^ 28 + c.toBits.toNat ∧
    (encode (.out c)).toNat = 10 * 2 ^ 28 + c.toBits.toNat ∧
    (encode (.inp c)).toNat = 11 * 2 ^ 28 + c.toBits.toNat ∧
    (encode (.loadp b c)).toNat = 12 * 2 ^ 28 + b.toBits.toNat * 2 ^ 3 + c.toBits.toNat ∧
    (encode (.lv a imm)).toNat = 13 * 2 ^ 28 + a.toBits.toNat * 2 ^ 25 + imm.toNat

/-- The words of the instruction files' examples and of 95_test_vectors.md decode to what they stand for. -/
def Obligations.ExampleWordsDecode : Prop :=
  decode 0x00000053 = .ok (.cmov .r1 .r2 .r3) ∧ decode 0x0FFFFE53 = .ok (.cmov .r1 .r2 .r3) ∧
    decode 0x1000014B = .ok (.sload .r5 .r1 .r3) ∧ decode 0x2000005C = .ok (.sstore .r1 .r3 .r4) ∧
    decode 0x300000CA = .ok (.add .r3 .r1 .r2) ∧ decode 0x400000CA = .ok (.mul .r3 .r1 .r2) ∧
    decode 0x500000CA = .ok (.div .r3 .r1 .r2) ∧ decode 0x600000CA = .ok (.nand .r3 .r1 .r2) ∧
    decode 0x7ABCDEF1 = .ok .halt ∧ decode 0x80000FED = .ok (.map .r5 .r5) ∧
    decode 0x90000001 = .ok (.unmap .r1) ∧ decode 0xA0000000 = .ok (.out .r0) ∧
    decode 0xB0000004 = .ok (.inp .r4) ∧ decode 0xC000000A = .ok (.loadp .r1 .r2) ∧
    decode 0xD0000041 = .ok (.lv .r0 0x41) ∧ decode 0xDFFFFFFF = .ok (.lv .r7 0x1FFFFFF) ∧
    decode 0xE0000000 = .error .illegalOpcode ∧ decode 0xF1234567 = .error .illegalOpcode

/-! ### The instructions -/

/-- R100: CMOV moves exactly when x[C] is not 0, and changes nothing else. -/
def Obligations.CmovMovesUnlessConditionZero : Prop :=
  DecodesStandard 0 .cmov ∧
  ∀ (a b c : Reg) (s : State), ∃ t, exec (.cmov a b c) s = .next t ∧
    t.reg a = (if s.reg c = 0 then s.reg a else s.reg b) ∧ OnlyRegister a s t

/-- R110: SLOAD reads the word, or raises UNMAPPED_SEGMENT, or else OFFSET_OUT_OF_BOUNDS. -/
def Obligations.SloadReadsWordOrIsFatal : Prop :=
  DecodesStandard 1 .sload ∧
  ∀ (a b c : Reg) (s : State),
    (∀ v, s.mem.word? (s.reg b).toNat (s.reg c).toNat = some v →
      ∃ t, exec (.sload a b c) s = .next t ∧ t.reg a = v ∧ OnlyRegister a s t) ∧
    (s.mem.len? (s.reg b).toNat = none →
      ∃ t, exec (.sload a b c) s = .next t ∧ FrozenWith .unmappedSegment s t) ∧
    (∀ n, s.mem.len? (s.reg b).toNat = some n → n ≤ (s.reg c).toNat →
      ∃ t, exec (.sload a b c) s = .next t ∧ FrozenWith .offsetOutOfBounds s t)

/-- R111: SSTORE stores the one word M[x[A], x[B]] and changes nothing else, or is fatal; and a later SLOAD
of that word yields what was stored. -/
def Obligations.SstoreWritesOneWordOrIsFatal : Prop :=
  DecodesStandard 2 .sstore ∧
  ∀ (a b c : Reg) (s : State), s.mem.wf = true →
    (∀ n, s.mem.len? (s.reg a).toNat = some n → (s.reg b).toNat < n →
      ∃ t, exec (.sstore a b c) s = .next t ∧
        t.mem.word? (s.reg a).toNat (s.reg b).toNat = some (s.reg c) ∧
        (∀ id o, ¬(id = (s.reg a).toNat ∧ o = (s.reg b).toNat) → t.mem.word? id o = s.mem.word? id o) ∧
        (∀ id, t.mem.len? id = s.mem.len? id) ∧ t.mem.tableLen = s.mem.tableLen ∧
        SameRegsBut (fun _ => False) s t ∧ t.pc = s.pc ∧ SameFreeList s t ∧ SameControl s t ∧
        t.host = s.host ∧
        ∀ (d x y : Reg), t.reg x = s.reg a → t.reg y = s.reg b →
          ∃ u, exec (.sload d x y) t = .next u ∧ u.reg d = s.reg c) ∧
    (s.mem.len? (s.reg a).toNat = none →
      ∃ t, exec (.sstore a b c) s = .next t ∧ FrozenWith .unmappedSegment s t) ∧
    (∀ n, s.mem.len? (s.reg a).toNat = some n → n ≤ (s.reg b).toNat →
      ∃ t, exec (.sstore a b c) s = .next t ∧ FrozenWith .offsetOutOfBounds s t)

/-- R121: ADD is the sum modulo 2^32. -/
def Obligations.AddIsSumModuloWord : Prop :=
  DecodesStandard 3 .add ∧
  ∀ (a b c : Reg) (s : State), ∃ t, exec (.add a b c) s = .next t ∧
    (t.reg a).toNat = ((s.reg b).toNat + (s.reg c).toNat) % 2 ^ 32 ∧ OnlyRegister a s t

/-- R122: MUL is the product modulo 2^32. -/
def Obligations.MulIsProductModuloWord : Prop :=
  DecodesStandard 4 .mul ∧
  ∀ (a b c : Reg) (s : State), ∃ t, exec (.mul a b c) s = .next t ∧
    (t.reg a).toNat = ((s.reg b).toNat * (s.reg c).toNat) % 2 ^ 32 ∧ OnlyRegister a s t

/-- R123: DIV is the floor of the unsigned quotient, and fatal on a zero divisor. -/
def Obligations.DivIsFloorQuotientOrFatal : Prop :=
  DecodesStandard 5 .div ∧
  ∀ (a b c : Reg) (s : State),
    (s.reg c ≠ 0 → ∃ t, exec (.div a b c) s = .next t ∧
      (t.reg a).toNat = (s.reg b).toNat / (s.reg c).toNat ∧ OnlyRegister a s t) ∧
    (s.reg c = 0 → ∃ t, exec (.div a b c) s = .next t ∧ FrozenWith .divideByZero s t)

/-- R124: every bit of NAND's result is the complement of the conjunction of the operands' bits. -/
def Obligations.NandComplementsConjunction : Prop :=
  DecodesStandard 6 .nand ∧
  ∀ (a b c : Reg) (s : State), ∃ t, exec (.nand a b c) s = .next t ∧
    (∀ i, i < 32 → (t.reg a).getLsbD i = !((s.reg b).getLsbD i && (s.reg c).getLsbD i)) ∧
    OnlyRegister a s t

/-- R140: every word 0x70000000 to 0x7FFFFFFF is HALT, which sets STATUS to HALTED, changes nothing else,
and stops; and a cycle ends the run with success only by a HALT or at the end of segment 0. That the step after
it answers the same state is log entry 7. -/
def Obligations.HaltStopsWithSuccess : Prop :=
  (∀ w : Word, 0x70000000 ≤ w.toNat → w.toNat ≤ 0x7FFFFFFF → decode w = .ok .halt) ∧
  (∀ s : State, ∃ t, exec .halt s = .next t ∧ t.status = .halted ∧ t.exitStatus? = some 0 ∧
    t.cause = s.cause ∧ t.params = s.params ∧ t.pc = s.pc ∧ SameRegsBut (fun _ => False) s t ∧
    SameMemory s t ∧ SameFreeList s t ∧ t.host = s.host ∧
    (t.host.resetLine = false → t.host.image = none → step t = .next t)) ∧
  ∀ s t : State, s.cycling → step s = .next t → t.succeeded →
    (∃ w, s.fetches w ∧ decode w = .ok .halt) ∨ ∃ n, s.mem.len? 0 = some n ∧ n ≤ s.pc.toNat

/-- R150: MAP gives a segment of x[C] zero words under an id from the free list, or under the fresh id TL
when the free list is empty, and leaves every other segment alone; it raises RESOURCE_EXHAUSTED exactly when
the storage or the ids run out. -/
def Obligations.MapAllocatesZeroedSegmentOrIsFatal : Prop :=
  DecodesStandard 8 (fun _ b c => .map b c) ∧
  (∀ (b c : Reg) (s : State), s.Inv → s.status = .running →
    fits s.params (s.mem.storageUsed + (s.reg c).toNat) = true →
    (s.freeList ≠ [] ∨ s.mem.tableLen < 2 ^ 32) →
    ∃ t, exec (.map b c) s = .next t ∧
      t.reg b ≠ 0 ∧ s.mem.len? (t.reg b).toNat = none ∧
      t.mem.len? (t.reg b).toNat = some (s.reg c).toNat ∧
      (∀ o, o < (s.reg c).toNat → t.mem.word? (t.reg b).toNat o = some 0) ∧
      SameSegmentsBut (t.reg b).toNat s t ∧
      (s.freeList ≠ [] → t.reg b ∈ s.freeList ∧ t.freeList = s.freeList.erase (t.reg b) ∧
        t.mem.tableLen = s.mem.tableLen) ∧
      (s.freeList = [] → (t.reg b).toNat = s.mem.tableLen ∧ t.freeList = [] ∧
        t.mem.tableLen = s.mem.tableLen + 1) ∧
      SameRegsBut (· = b) s t ∧ t.pc = s.pc ∧ SameControl s t ∧ t.host = s.host) ∧
  ∀ (b c : Reg) (s : State),
    (fits s.params (s.mem.storageUsed + (s.reg c).toNat) = false ∨
      (s.freeList = [] ∧ s.mem.tableLen = 2 ^ 32)) →
    ∃ t, exec (.map b c) s = .next t ∧ FrozenWith .resourceExhausted s t

/-- With the reference FREE_PICK (log entries 2 and 3), MAP reuses the lowest end of a non-empty free list
(20_memory.md R47). -/
def Obligations.MapReusesOldestUnderReferencePick : Prop :=
  ∀ (b c : Reg) (s : State) (id : Word) (rest : List Word),
    s.params.freePick = .oldest → s.freeList = id :: rest →
    fits s.params (s.mem.storageUsed + (s.reg c).toNat) = true →
    ∃ t, exec (.map b c) s = .next t ∧ t.reg b = id ∧ t.freeList = rest

/-- R151: UNMAP releases the segment and appends its id at the high end of the free list, or raises
BAD_UNMAP for id 0 and for an id that is not mapped. -/
def Obligations.UnmapReleasesSegmentOrIsFatal : Prop :=
  DecodesStandard 9 (fun _ _ c => .unmap c) ∧
  ∀ (c : Reg) (s : State), s.mem.wf = true →
    (s.reg c ≠ 0 → s.mem.len? (s.reg c).toNat ≠ none →
      ∃ t, exec (.unmap c) s = .next t ∧
        t.mem.len? (s.reg c).toNat = none ∧ (∀ o, t.mem.word? (s.reg c).toNat o = none) ∧
        SameSegmentsBut (s.reg c).toNat s t ∧ t.mem.tableLen = s.mem.tableLen ∧
        t.freeList = s.freeList ++ [s.reg c] ∧ t.draws = s.draws ∧
        SameRegsBut (fun _ => False) s t ∧ t.pc = s.pc ∧ SameControl s t ∧ t.host = s.host) ∧
    ((s.reg c = 0 ∨ s.mem.len? (s.reg c).toNat = none) →
      ∃ t, exec (.unmap c) s = .next t ∧ FrozenWith .badUnmap s t)

/-- R152: MAP followed by UNMAP of the returned id leaves the available ids as they were: exactly the free
list's ids when MAP reused one, and with TL one higher when it took the fresh one. A next MAP may return that
id, and under the reference FREE_PICK it does exactly when no older free id is queued before it. -/
def Obligations.MapThenUnmapRestoresAvailableIds : Prop :=
  ∀ (b c : Reg) (s : State), s.Inv → s.status = .running →
    fits s.params (s.mem.storageUsed + (s.reg c).toNat) = true →
    (s.freeList ≠ [] ∨ s.mem.tableLen < 2 ^ 32) →
    ∃ t u, exec (.map b c) s = .next t ∧ exec (.unmap b) t = .next u ∧ u.status = .running ∧
      (∀ id, u.available id ↔ s.available id) ∧ u.available (t.reg b) ∧
      (s.freeList ≠ [] → ∀ id, id ∈ u.freeList ↔ id ∈ s.freeList) ∧
      (s.freeList = [] → u.freeList = [t.reg b] ∧ u.mem.tableLen = s.mem.tableLen + 1) ∧
      (∀ o, u.mem.word? (t.reg b).toNat o = none) ∧
      (s.params.freePick = .oldest →
        ∀ d e, fits u.params (u.mem.storageUsed + (u.reg e).toNat) = true →
          ∃ v, exec (.map d e) u = .next v ∧ (v.reg d = t.reg b ↔ s.freeList.length ≤ 1))

/-- R170: OUT raises OUTPUT_RANGE above 255 and offers nothing; otherwise the host's Accept appends the byte
and its Fail raises OUTPUT_FAILURE. That a Fail is used up is log entry 13; that a step without an answer leaves
the state as it was is log entry 6. -/
def Obligations.OutEmitsByteOrIsFatal : Prop :=
  DecodesStandard 10 (fun _ _ c => .out c) ∧
  ∀ (c : Reg) (s : State),
    (255 < (s.reg c).toNat → ∃ t, exec (.out c) s = .next t ∧ FrozenWith .outputRange s t) ∧
    (∀ rest, (s.reg c).toNat ≤ 255 → s.host.outAnswers = .accept :: rest →
      ∃ t b, exec (.out c) s = .next t ∧ b.toNat = (s.reg c).toNat ∧
        t.host = { s.host with outAnswers := rest, output := s.host.output ++ [b] } ∧
        SameRegsBut (fun _ => False) s t ∧ t.pc = s.pc ∧ SameMemory s t ∧ SameFreeList s t ∧
        SameControl s t) ∧
    (∀ rest, (s.reg c).toNat ≤ 255 → s.host.outAnswers = .fail :: rest →
      ∃ t, exec (.out c) s = .next t ∧
        FrozenWith .outputFailure { s with host := { s.host with outAnswers := rest } } t) ∧
    (∀ w, (s.reg c).toNat ≤ 255 → s.host.outAnswers = [] → s.fetches w → decode w = .ok (.out c) →
      step s = .next s)

/-- R171: IN writes the byte zero-extended, or all ones at EOF, or raises INPUT_FAILURE; with no answer it
holds. That a Fail is used up is log entry 13; that a hold leaves the state as it was is log entry 6. -/
def Obligations.InReadsByteOrEofOrIsFatal : Prop :=
  DecodesStandard 11 (fun _ _ c => .inp c) ∧
  ∀ (c : Reg) (s : State),
    (∀ b rest, s.host.inAnswers = .byte b :: rest →
      ∃ t, exec (.inp c) s = .next t ∧ (t.reg c).toNat = b.toNat ∧
        SameRegsBut (· = c) s t ∧ t.pc = s.pc ∧ SameMemory s t ∧ SameFreeList s t ∧ SameControl s t ∧
        t.host = { s.host with inAnswers := rest }) ∧
    (∀ rest, s.host.inAnswers = .eof :: rest →
      ∃ t, exec (.inp c) s = .next t ∧ (t.reg c).toNat = 2 ^ 32 - 1 ∧
        SameRegsBut (· = c) s t ∧ t.pc = s.pc ∧ SameMemory s t ∧ SameFreeList s t ∧ SameControl s t ∧
        t.host = { s.host with inAnswers := rest }) ∧
    (∀ rest, s.host.inAnswers = .fail :: rest →
      ∃ t, exec (.inp c) s = .next t ∧
        FrozenWith .inputFailure { s with host := { s.host with inAnswers := rest } } t) ∧
    (∀ w, s.host.inAnswers = [] → s.fetches w → decode w = .ok (.inp c) → step s = .next s)

/-- R190: with x[B] not 0, LOADP makes segment 0 a copy of segment x[B], leaves every other segment, TL and
the free list alone, and sets the pc to x[C]; it is fatal, before its pc write, when segment x[B] is not
mapped or the copy does not fit. With x[B] = 0 it only sets the pc. -/
def Obligations.LoadpReplacesProgramOrIsFatal : Prop :=
  DecodesStandard 12 (fun _ b c => .loadp b c) ∧
  ∀ (b c : Reg) (s : State),
    (s.reg b = 0 → ∃ t, exec (.loadp b c) s = .next t ∧ t.pc = s.reg c ∧
      SameRegsBut (fun _ => False) s t ∧ SameMemory s t ∧ SameFreeList s t ∧ SameControl s t ∧
      t.host = s.host) ∧
    (∀ n, s.reg b ≠ 0 → s.mem.len? (s.reg b).toNat = some n →
      fits s.params (s.mem.storageUsed - (s.mem.len? 0).getD 0 + n) = true →
      ∃ t, exec (.loadp b c) s = .next t ∧ t.pc = s.reg c ∧
        CopiedSegment (s.reg b).toNat s 0 t ∧ SameSegmentsBut 0 s t ∧
        t.mem.tableLen = s.mem.tableLen ∧ SameFreeList s t ∧
        SameRegsBut (fun _ => False) s t ∧ SameControl s t ∧ t.host = s.host) ∧
    (s.reg b ≠ 0 → s.mem.len? (s.reg b).toNat = none →
      ∃ t, exec (.loadp b c) s = .next t ∧ FrozenWith .unmappedSegment s t) ∧
    (∀ n, s.reg b ≠ 0 → s.mem.len? (s.reg b).toNat = some n →
      fits s.params (s.mem.storageUsed - (s.mem.len? 0).getD 0 + n) = false →
      ∃ t, exec (.loadp b c) s = .next t ∧ FrozenWith .resourceExhausted s t)

/-- R191: with x[B] = 0, LOADP sets the pc to x[C] and changes nothing else; no fatal condition is possible. -/
def Obligations.LoadpFromZeroIsPureJump : Prop :=
  ∀ (b c : Reg) (s : State), s.reg b = 0 → exec (.loadp b c) s = .next { s with pc := s.reg c }

/-- The copy of LOADP is deep (20_memory.md R52, 10_state.md R31): after it, a store to any other segment
leaves the copy alone, and a store to segment 0 leaves the source alone. -/
def Obligations.LoadpCopyDoesNotAlias : Prop :=
  ∀ (b c x y z : Reg) (s : State) (n : Nat), s.Inv → s.reg b ≠ 0 →
    s.mem.len? (s.reg b).toNat = some n →
    fits s.params (s.mem.storageUsed - (s.mem.len? 0).getD 0 + n) = true →
    (s.reg y).toNat < n → (s.reg x = 0 ∨ s.reg x = s.reg b) →
    ∃ t u, exec (.loadp b c) s = .next t ∧ exec (.sstore x y z) t = .next u ∧ u.status = s.status ∧
      u.mem.word? (s.reg x).toNat (s.reg y).toNat = some (s.reg z) ∧
      (s.reg x = s.reg b → ∀ o, u.mem.word? 0 o = s.mem.word? (s.reg b).toNat o) ∧
      (s.reg x = 0 → ∀ o, u.mem.word? (s.reg b).toNat o = s.mem.word? (s.reg b).toNat o)

/-- R210: every word with w[31:28] = 13 is an LV that writes zext_32(w[24:0]) to the register of w[27:25]. -/
def Obligations.LvLoadsZeroExtendedImmediate : Prop :=
  (∀ w : Word, (w.extractLsb' 28 4).toNat = 13 → ∃ imm : Word,
    decode w = .ok (.lv (Reg.ofBits (w.extractLsb' 25 3)) imm) ∧ imm.toNat = (w.extractLsb' 0 25).toNat) ∧
  ∀ (a : Reg) (imm : Word) (s : State), ∃ t, exec (.lv a imm) s = .next t ∧ t.reg a = imm ∧
    OnlyRegister a s t

/-- R96's idioms: NOT, ONES, MOV, JMP and SUB, each under its stated precondition, give the stated result. -/
def Obligations.IdiomsComputeTheirResults : Prop :=
  (∀ (a b : Reg) (s : State), ∃ t, exec (.nand a b b) s = .next t ∧ t.reg a = ~~~ s.reg b) ∧
  (∀ (a z : Reg) (s : State), s.reg z = 0 →
    ∃ t, exec (.nand a z z) s = .next t ∧ t.reg a = 0xFFFFFFFF) ∧
  (∀ (a b z : Reg) (s : State), s.reg z = 0 →
    ∃ t, exec (.add a b z) s = .next t ∧ t.reg a = s.reg b) ∧
  (∀ (z c : Reg) (s : State), s.reg z = 0 →
    ∃ t, exec (.loadp z c) s = .next t ∧ t.pc = s.reg c ∧ SameMemory s t) ∧
  (∀ (a b c o x : Reg) (s : State), s.reg o = 1 → x ≠ b → x ≠ o →
    ∃ t u v, exec (.nand x c c) s = .next t ∧ exec (.add x x o) t = .next u ∧
      exec (.add a b x) u = .next v ∧
      ((v.reg a).toNat : Int) = ((s.reg b).toNat - (s.reg c).toNat : Int) % 2 ^ 32)

/-! ### The cycle and its endings -/

/-- A step runs the decoded instruction: when a cycle fetches w and w decodes to i, the step is exec of i on
the state with the pc incremented (30_encoding.md R91, R93). -/
def Obligations.StepRunsDecodedInstruction : Prop :=
  ∀ (s : State) (w : Word) (i : Instr), s.fetches w → decode w = .ok i →
    step s = exec i { s with pc := s.pc + 1 }

/-- R86: a fetched word with w[31:28] at least 14 is ILLEGAL_OPCODE, whatever its other bits, and nothing but
the fetch's increment has happened; in a register, and stored in memory, such a word is ordinary data. -/
def Obligations.IllegalOpcodeIsFatal : Prop :=
  (∀ (s : State) (w : Word), s.fetches w → 14 ≤ (w.extractLsb' 28 4).toNat →
    ∃ t, step s = .next t ∧ FrozenWith .illegalOpcode { s with pc := s.pc + 1 } t) ∧
  ∀ (a b c d : Reg) (s : State) (n : Nat), s.mem.wf = true →
    14 ≤ ((s.reg c).extractLsb' 28 4).toNat → s.mem.len? (s.reg a).toNat = some n →
    (s.reg b).toNat < n →
    ∃ t u, exec (.sstore a b c) s = .next t ∧ t.status = s.status ∧
      t.mem.word? (s.reg a).toNat (s.reg b).toNat = some (s.reg c) ∧
      exec (.sload d a b) t = .next u ∧ u.status = s.status ∧ u.reg d = s.reg c

/-- The end check (30_encoding.md R90): at or beyond the end of segment 0 the run ends, normally, or with
PC_OUT_OF_RANGE if the pc is beyond the end and LOADP_OOR = fatal. -/
def Obligations.EndCheckEndsTheRun : Prop :=
  ∀ (s : State) (n : Nat), s.cycling → s.mem.len? 0 = some n → n ≤ s.pc.toNat →
    (n < s.pc.toNat → s.params.loadpOor = .fatal →
      ∃ t, step s = .next t ∧ FrozenWith .pcOutOfRange s t) ∧
    (n = s.pc.toNat ∨ s.params.loadpOor = .endNormally →
      ∃ t, step s = .next t ∧ t.status = .ended ∧ t.exitStatus? = some 0 ∧ t.cause = s.cause ∧
        t.params = s.params ∧ t.pc = s.pc ∧ SameRegsBut (fun _ => False) s t ∧ SameMemory s t ∧
        SameFreeList s t ∧ t.host = s.host)

/-- R89: a cycle is taken only in RUNNING, where the step answers a next state (which for an IN or OUT that the
host has not answered is the same state, log entry 6); IDLE waits, HALTED and ENDED stay as they are (log entry 7),
and a FATAL block has no step, which is the fault (log entry 5). -/
def Obligations.OnlyARunningBlockCycles : Prop :=
  ∀ s : State, s.host.resetLine = false → s.host.image = none →
    (s.status = .running → ∃ t, step s = .next t) ∧
    ((s.status = .idle ∨ s.status = .halted ∨ s.status = .ended) → step s = .next s) ∧
    (s.status = .fatal → step s = .fault (.fatalStop s.cause))

/-- A step faults only in FATAL with no host transaction pending, and no instruction is refused
(30_encoding.md R89, 60_exceptions.md R220). That the cycle after a fatal condition is the fault is log entry 5. -/
def Obligations.StepStopsOnlyInFatal : Prop :=
  ∀ s : State, (∀ r, step s ≠ .refused r) ∧
    ∀ f, step s = .fault f ↔
      s.status = .fatal ∧ s.host.resetLine = false ∧ s.host.image = none ∧ f = .fatalStop s.cause

/-- A stopped run stays stopped (60_exceptions.md R228): from HALTED, ENDED or FATAL, no step but a reset
changes STATUS, CAUSE, the pc, a register, a word, the free list or the output. -/
def Obligations.OnlyResetLeavesAStoppedRun : Prop :=
  ∀ s t : State, (s.status = .halted ∨ s.status = .ended ∨ s.status = .fatal) →
    s.host.resetLine = false → step s = .next t →
    SameControl s t ∧ t.pc = s.pc ∧ SameRegsBut (fun _ => False) s t ∧ SameMemory s t ∧
      SameFreeList s t ∧ t.host.output = s.host.output

/-- Fatal conditions are precise (60_exceptions.md R224, 00_scope.md R12): a cycle that ends in FATAL has
changed no register, no word, no allocator entry and emitted no byte; the pc has only the fetch's increment,
or, for PC_OUT_OF_RANGE, no change. -/
def Obligations.FatalConditionsArePrecise : Prop :=
  ∀ s t : State, s.Inv → s.cycling → step s = .next t → t.status = .fatal →
    t.cause ≠ .none ∧ SameRegsBut (fun _ => False) s t ∧ SameMemory s t ∧ SameFreeList s t ∧
      t.params = s.params ∧ t.host.output = s.host.output ∧
      t.pc = if t.cause = .pcOutOfRange then s.pc else s.pc + 1

/-- R229: HALTED and ENDED are success, exit status 0; FATAL is a non-zero exit status; a run in IDLE or
RUNNING has none yet. EXIT_FATAL is an opaque number that is not 0 (log entry 14). -/
def Obligations.ExitStatusReportsHowTheRunEnded : Prop :=
  ∀ s : State,
    (s.succeeded → s.exitStatus? = some 0) ∧
    (s.status = .fatal → ∃ n, s.exitStatus? = some n ∧ n ≠ 0) ∧
    ((s.status = .idle ∨ s.status = .running) → s.exitStatus? = none)

/-- The codes the host reads (10_state.md R34, 60_exceptions.md R221). -/
def Obligations.StatusAndCauseCodes : Prop :=
  (Status.idle.code = 0 ∧ Status.running.code = 1 ∧ Status.halted.code = 2 ∧ Status.ended.code = 3 ∧
    Status.fatal.code = 4) ∧
  (Cause.none.code = 0 ∧ Cause.illegalOpcode.code = 1 ∧ Cause.registerIndex.code = 2 ∧
    Cause.unmappedSegment.code = 3 ∧ Cause.offsetOutOfBounds.code = 4 ∧ Cause.badUnmap.code = 5 ∧
    Cause.divideByZero.code = 6 ∧ Cause.outputRange.code = 7 ∧ Cause.inputFailure.code = 8 ∧
    Cause.outputFailure.code = 9 ∧ Cause.resourceExhausted.code = 10 ∧ Cause.invalidImage.code = 11 ∧
    Cause.pcOutOfRange.code = 12)

/-! ### Reset and image load -/

/-- R260: reset, asserted in any STATUS, gives every piece of the block's state its reset value; in IDLE the
block takes no cycle, which is a step that answers the same state (log entry 7). What the host's side keeps is
log entry 11. -/
def Obligations.ResetClearsTheBlock : Prop :=
  (∀ s : State, s.host.resetLine = true →
    ∃ t, step s = .next t ∧ t.status = .idle ∧ t.cause = .none ∧ (∀ r, t.reg r = 0) ∧ t.pc = 0 ∧
      t.mem.tableLen = 0 ∧ (∀ id, t.mem.len? id = none) ∧ t.freeList = [] ∧ t.params = s.params) ∧
  ∀ s : State, s.status = .idle → s.host.resetLine = false → s.host.image = none → step s = .next s

/-- The values of 70_reset_and_hazards.md R262, for every choice of the parameters: the state right after reset,
and, but for the words of segment 0 (`Obligations.ImageLoadInstallsProgram` gives them), the state right after an
image load that fits (with the reference FREE_LIST_HINT = 0: TL = 1 and an empty free list). That State.reset takes
the reference parameters is log entry 2, and the host's side at reset is log entry 4. -/
def Obligations.ResetAndLoadedValues : Prop :=
  State.reset = State.resetWith State.reset.params ∧
  ∀ p : Params,
    (∀ r, (State.resetWith p).reg r = 0) ∧ (State.resetWith p).pc = 0 ∧
    (State.resetWith p).mem.tableLen = 0 ∧ (∀ id, (State.resetWith p).mem.len? id = none) ∧
    (State.resetWith p).freeList = [] ∧ (State.resetWith p).status.code = 0 ∧
    (State.resetWith p).cause.code = 0 ∧
    ∀ bytes : List Byte, bytes.length % 4 = 0 → bytes.length / 4 < 2 ^ 32 →
      fits p (bytes.length / 4) = true →
      ∃ t, step { State.resetWith p with host := { HostPort.quiet with image := some bytes } } = .next t ∧
        (∀ r, t.reg r = 0) ∧ t.pc = 0 ∧ t.mem.tableLen = max 1 p.freeListHint ∧
        t.mem.len? 0 = some (bytes.length / 4) ∧ (∀ id, id ≠ 0 → t.mem.len? id = none) ∧
        t.freeList.length = p.freeListHint - 1 ∧
        (∀ k, k + 1 < p.freeListHint → t.freeList[k]? = some (BitVec.ofNat 32 (k + 1))) ∧
        t.status.code = 1 ∧ t.cause.code = 0

/-- R261 with R54: an image offered in IDLE becomes segment 0, word by big-endian word, beside the
pre-populated free ids, and the block runs; a wrong byte count is INVALID_IMAGE, a too large image
RESOURCE_EXHAUSTED; in any other STATUS the offer is refused and nothing changes. That an offer is used up, taken
or not, is log entry 12. -/
def Obligations.ImageLoadInstallsProgram : Prop :=
  ∀ (s : State) (bytes : List Byte), s.host.resetLine = false → s.host.image = some bytes →
    (s.status = .idle → (bytes.length % 4 ≠ 0 ∨ 2 ^ 32 - 1 < bytes.length / 4) →
      ∃ t, step s = .next t ∧
        FrozenWith .invalidImage { s with host := { s.host with image := none } } t) ∧
    (s.status = .idle → bytes.length % 4 = 0 → bytes.length / 4 ≤ 2 ^ 32 - 1 →
      fits s.params (bytes.length / 4) = false →
      ∃ t, step s = .next t ∧
        FrozenWith .resourceExhausted { s with host := { s.host with image := none } } t) ∧
    (s.status = .idle → bytes.length % 4 = 0 → bytes.length / 4 ≤ 2 ^ 32 - 1 →
      fits s.params (bytes.length / 4) = true →
      ∃ t, step s = .next t ∧ t.status = .running ∧ t.cause = .none ∧ (∀ r, t.reg r = 0) ∧ t.pc = 0 ∧
        t.mem.tableLen = max 1 s.params.freeListHint ∧ t.mem.len? 0 = some (bytes.length / 4) ∧
        (∀ k, k < bytes.length / 4 → ∃ v, t.mem.word? 0 k = some v ∧
          v.toNat = (bytes.getD (4 * k) 0).toNat * 2 ^ 24 + (bytes.getD (4 * k + 1) 0).toNat * 2 ^ 16 +
            (bytes.getD (4 * k + 2) 0).toNat * 2 ^ 8 + (bytes.getD (4 * k + 3) 0).toNat) ∧
        (∀ id, id ≠ 0 → t.mem.len? id = none) ∧
        t.freeList = (List.range (s.params.freeListHint - 1)).map (fun k => BitVec.ofNat 32 (k + 1))) ∧
    (s.status ≠ .idle →
      ∃ t, step s = .next t ∧ SameControl s t ∧ t.pc = s.pc ∧ SameRegsBut (fun _ => False) s t ∧
        SameMemory s t ∧ SameFreeList s t ∧ t.host = { s.host with image := none })

/-- R263: the first cycle after an image load executes M[0, 0]; of an empty image it ends the run. -/
def Obligations.FirstCycleAfterLoad : Prop :=
  ∀ (s : State) (bytes : List Byte), s.status = .idle → s.host.resetLine = false →
    s.host.image = some bytes → bytes.length % 4 = 0 → bytes.length / 4 ≤ 2 ^ 32 - 1 →
    fits s.params (bytes.length / 4) = true →
    ∃ t, step s = .next t ∧
      (bytes = [] → ∃ u, step t = .next u ∧ u.status = .ended) ∧
      (bytes ≠ [] → ∃ w, t.fetches w ∧ t.mem.word? 0 0 = some w ∧
        ∀ i, decode w = .ok i → step t = exec i { t with pc := 1 })

/-- R49: the first MAP after an image load returns an id of at least 1, and exactly 1 when FREE_LIST_HINT is 0.
The load leaves the allocator as loaded; every step that leaves the block RUNNING and executes no MAP keeps it so;
and a MAP there that fits completes with such an id. -/
def Obligations.FirstMapReturnsPositiveId : Prop :=
  (∀ (s t : State) (bytes : List Byte), s.status = .idle → s.host.resetLine = false →
    s.host.image = some bytes → step s = .next t → t.status = .running → t.asLoaded) ∧
  (∀ s t : State, s.Inv → s.asLoaded → step s = .next t → t.status = .running →
    (∀ w b c, s.fetches w → decode w ≠ .ok (.map b c)) → t.asLoaded) ∧
  ∀ (b c : Reg) (s : State), s.Inv → s.asLoaded →
    fits s.params (s.mem.storageUsed + (s.reg c).toNat) = true →
    ∃ t, exec (.map b c) s = .next t ∧ t.status = .running ∧ 1 ≤ (t.reg b).toNat ∧
      (s.params.freeListHint = 0 → t.reg b = 1)

/-! ### The whole machine -/

/-- The invariant of the block holds right after reset, for every choice of the parameters. -/
def Obligations.ResetSatisfiesInvariant : Prop :=
  State.reset.Inv ∧ ∀ p : Params, p.freeListHint ≤ 2 ^ 32 → (State.resetWith p).Inv

/-- Every step keeps the invariant of the block (10_state.md R27, R29, R30, R34, R35), from every state that
has it. -/
def Obligations.EveryStepKeepsInvariant : Prop :=
  ∀ s t : State, s.Inv → step s = .next t → t.Inv

/-- Every step keeps the storage in use within WORD_CAPACITY (20_memory.md R45). -/
def Obligations.EveryStepStaysWithinCapacity : Prop :=
  ∀ s t : State, s.Inv → s.withinCapacity → step s = .next t → t.withinCapacity

/-- The pc stays at most the length of segment 0, except right after a LOADP, whose target it then is
(10_state.md R35 (6)). -/
def Obligations.PcStaysWithinProgramExceptAfterLoadp : Prop :=
  ∀ (s t : State) (n : Nat), s.Inv → s.cycling → step s = .next t → t.status = .running →
    t.mem.len? 0 = some n →
    t.pc.toNat ≤ n ∨ ∃ w b c, s.mem.word? 0 s.pc.toNat = some w ∧ decode w = .ok (.loadp b c) ∧
      t.pc = s.reg c

/-- The fetch's increment never wraps (10_state.md R25). -/
def Obligations.FetchIncrementNeverWraps : Prop :=
  ∀ (s : State) (w : Word), s.Inv → s.fetches w → (s.pc + 1).toNat = s.pc.toNat + 1

/-- The only register an instruction writes is its destination; SSTORE, HALT, UNMAP, OUT and LOADP write none
(10_state.md R20). -/
def Obligations.InstructionsWriteOnlyTheirDestination : Prop :=
  ∀ (i : Instr) (s t : State), exec i s = .next t →
    SameRegsBut (fun r => destination i = some r) s t

/-- LOADP alone changes the pc beyond the fetch's increment (10_state.md R24); an IN or OUT that the host has
not answered takes the increment back (log entry 6). -/
def Obligations.OnlyLoadpRedirectsThePc : Prop :=
  ∀ (i : Instr) (s t : State), exec i s = .next t → (∀ b c, i ≠ .loadp b c) →
    t.pc = s.pc ∨
      (t = { s with pc := s.pc - 1 } ∧
        ((∃ c, i = .out c ∧ s.host.outAnswers = []) ∨ (∃ c, i = .inp c ∧ s.host.inAnswers = [])))

/-- IN and OUT are the only instructions with an effect on the host's side, and each takes at most one answer
and emits at most one byte (20_memory.md R58). -/
def Obligations.OnlyByteIoTouchesTheHost : Prop :=
  ∀ (i : Instr) (s t : State), exec i s = .next t →
    ((∀ c, i ≠ .out c) → (∀ c, i ≠ .inp c) → t.host = s.host) ∧
    (∀ c, i = .inp c → t.host = s.host ∨
      ∃ x, s.host.inAnswers = x :: t.host.inAnswers ∧
        t.host = { s.host with inAnswers := t.host.inAnswers }) ∧
    (∀ c, i = .out c → t.host = s.host ∨
      ∃ x, s.host.outAnswers = x :: t.host.outAnswers ∧ ∃ bs : List Byte, bs.length ≤ 1 ∧
        t.host = { s.host with outAnswers := t.host.outAnswers, output := s.host.output ++ bs })

/-- Segments are never resized (10_state.md R28): a segment other than 0 that a cycle leaves mapped keeps its
length, and segment 0 changes its length only by LOADP; the table grows by at most one slot, and only when
the free list is empty (R27). -/
def Obligations.SegmentsAreNeverResized : Prop :=
  ∀ s t : State, s.Inv → s.cycling → step s = .next t →
    (∀ id n m, id ≠ 0 → s.mem.len? id = some n → t.mem.len? id = some m → n = m) ∧
    (t.mem.len? 0 ≠ s.mem.len? 0 →
      ∃ w b c, s.mem.word? 0 s.pc.toNat = some w ∧ decode w = .ok (.loadp b c)) ∧
    (t.mem.tableLen = s.mem.tableLen ∨ (t.mem.tableLen = s.mem.tableLen + 1 ∧ s.freeList = []))

/-- A word changes only by an SSTORE that names it: any other cycle leaves every word of every segment it
does not map, unmap or replace as it was (20_memory.md R61). -/
def Obligations.OnlySstoreOrLoadpChangesAWord : Prop :=
  ∀ (i : Instr) (s t : State) (id o : Nat) (v w : Word), s.Inv → exec i s = .next t →
    s.mem.word? id o = some v → t.mem.word? id o = some w → w ≠ v →
    (∃ a b c, i = .sstore a b c ∧ (s.reg a).toNat = id ∧ (s.reg b).toNat = o ∧ s.reg c = w) ∨
      (id = 0 ∧ ∃ b c, i = .loadp b c ∧ s.reg b ≠ 0 ∧ s.mem.word? (s.reg b).toNat o = some w)

/-- A store into the instruction stream is executed by the very next cycle (70_reset_and_hazards.md R267,
20_memory.md R63): when an SSTORE writes its own offset plus one, the next step runs the stored word. -/
def Obligations.StoreToNextWordIsExecutedNext : Prop :=
  ∀ (s : State) (w : Word) (a b c : Reg) (n : Nat) (i : Instr), s.Inv → s.fetches w →
    decode w = .ok (.sstore a b c) → s.reg a = 0 → s.reg b = s.pc + 1 → s.mem.len? 0 = some n →
    s.pc.toNat + 1 < n → decode (s.reg c) = .ok i →
    ∃ t, step s = .next t ∧ t.fetches (s.reg c) ∧ step t = exec i { t with pc := s.pc + 2 }

/-- After a LOADP that copies, the very next fetch reads the new segment 0 at x[C]
(70_reset_and_hazards.md R268). -/
def Obligations.FetchAfterLoadpReadsNewProgram : Prop :=
  ∀ (s : State) (w v : Word) (b c : Reg) (n : Nat), s.Inv → s.fetches w →
    decode w = .ok (.loadp b c) → s.reg b ≠ 0 → s.mem.len? (s.reg b).toNat = some n →
    fits s.params (s.mem.storageUsed - (s.mem.len? 0).getD 0 + n) = true →
    s.mem.word? (s.reg b).toNat (s.reg c).toNat = some v →
    ∃ t, step s = .next t ∧ t.fetches v

/-- R89: a cycle that awaits the host's answer holds, which is a step that leaves the state as it was (log entry
6); every other cycle completes: it ends the run, or it has executed the fetched instruction and the pc stands
after it, or at the target of a LOADP. -/
def Obligations.EveryCycleCompletesUnlessItAwaitsTheHost : Prop :=
  ∀ s : State, s.cycling →
    (s.awaitsHost → step s = .next s) ∧
    (¬ s.awaitsHost → ∃ t, step s = .next t ∧
      (t.status ≠ .running ∨ ∃ w i, s.fetches w ∧ decode w = .ok i ∧
        (t.pc = s.pc + 1 ∨ ∃ b c, i = .loadp b c ∧ t.pc = s.reg c)))
end

