-- ==== Sys2Proof/Laws/Cells.lean ====
section
/-! SUPPORT. The sparse lists: read after write, and that the strictly rising form is kept. -/
namespace Sys2Proof.Machine

variable {α : Type}

/-- Weakening the lower bound of a rising list. -/
theorem cellsRising_mono {lo lo' : Nat} {l : List (Nat × α)} (h : lo' ≤ lo)
    (hl : cellsRising lo l = true) : cellsRising lo' l = true := by
  cases l with
  | nil => rfl
  | cons c rest =>
    simp only [cellsRising, Bool.and_eq_true, decide_eq_true_eq] at *
    exact ⟨h.trans hl.1, hl.2⟩

/-- A key below a rising list's bound is not in it. -/
theorem cellGet?_lt {lo a : Nat} {l : List (Nat × α)} (hl : cellsRising lo l = true) (h : a < lo) :
    cellGet? l a = none := by
  induction l generalizing lo with
  | nil => rfl
  | cons c rest ih =>
    simp only [cellsRising, Bool.and_eq_true, decide_eq_true_eq] at hl
    simp only [cellGet?]
    rw [if_neg (by omega), ih hl.2 (by omega)]

/-- A listed key reads back as its value. -/
theorem cellGet?_mem {a : Nat} {v : α} {l : List (Nat × α)} (h : cellGet? l a = some v) : (a, v) ∈ l := by
  induction l with
  | nil => simp [cellGet?] at h
  | cons c rest ih =>
    obtain ⟨k, w⟩ := c
    simp only [cellGet?] at h
    split at h
    · rename_i hk
      cases h
      subst hk
      exact List.mem_cons_self
    · exact List.mem_cons_of_mem _ (ih h)

@[simp] theorem cellGet?_cellPut_self (l : List (Nat × α)) (a : Nat) (v : α) :
    cellGet? (cellPut l a v) a = some v := by
  induction l with
  | nil => simp [cellPut, cellGet?]
  | cons c rest ih =>
    simp only [cellPut]
    split
    · simp [cellGet?]
    · split
      · simp [cellGet?]
      · rename_i h
        simp only [cellGet?]
        rw [if_neg (Ne.symm h), ih]

theorem cellGet?_cellPut_ne (l : List (Nat × α)) {a b : Nat} (v : α) (h : b ≠ a) :
    cellGet? (cellPut l a v) b = cellGet? l b := by
  induction l with
  | nil => simp [cellPut, cellGet?, Ne.symm h]
  | cons c rest ih =>
    simp only [cellPut]
    split
    · simp [cellGet?, Ne.symm h]
    · split
      · rename_i h'
        subst h'
        simp [cellGet?, Ne.symm h]
      · simp only [cellGet?, ih]

theorem cellGet?_cellErase_self {lo : Nat} {l : List (Nat × α)} (a : Nat) (hl : cellsRising lo l = true) :
    cellGet? (cellErase l a) a = none := by
  induction l generalizing lo with
  | nil => rfl
  | cons c rest ih =>
    simp only [cellsRising, Bool.and_eq_true, decide_eq_true_eq] at hl
    simp only [cellErase]
    split
    · exact cellGet?_lt hl.2 (by omega)
    · rename_i h
      simp only [cellGet?]
      rw [if_neg h, ih hl.2]

theorem cellGet?_cellErase_ne (l : List (Nat × α)) {a b : Nat} (h : b ≠ a) :
    cellGet? (cellErase l a) b = cellGet? l b := by
  induction l with
  | nil => rfl
  | cons c rest ih =>
    simp only [cellErase]
    split
    · rename_i h'
      subst h'
      simp [cellGet?, Ne.symm h]
    · simp only [cellGet?, ih]

/-- Putting a value keeps the keys strictly rising. -/
theorem cellsRising_cellPut {lo a : Nat} {l : List (Nat × α)} (v : α) (hl : cellsRising lo l = true)
    (ha : lo ≤ a) : cellsRising lo (cellPut l a v) = true := by
  induction l generalizing lo with
  | nil => simp [cellPut, cellsRising, ha]
  | cons c rest ih =>
    simp only [cellsRising, Bool.and_eq_true, decide_eq_true_eq] at hl
    simp only [cellPut]
    split
    · simp only [cellsRising, Bool.and_eq_true, decide_eq_true_eq]
      exact ⟨ha, by omega, hl.2⟩
    · split
      · rename_i h
        simp only [cellsRising, Bool.and_eq_true, decide_eq_true_eq]
        exact ⟨ha, h ▸ hl.2⟩
      · simp only [cellsRising, Bool.and_eq_true, decide_eq_true_eq]
        exact ⟨hl.1, ih hl.2 (by omega)⟩

/-- Taking a key out keeps the keys strictly rising. -/
theorem cellsRising_cellErase {lo a : Nat} {l : List (Nat × α)} (hl : cellsRising lo l = true) :
    cellsRising lo (cellErase l a) = true := by
  induction l generalizing lo with
  | nil => rfl
  | cons c rest ih =>
    simp only [cellsRising, Bool.and_eq_true, decide_eq_true_eq] at hl
    simp only [cellErase]
    split
    · exact cellsRising_mono (by omega) hl.2
    · simp only [cellsRising, Bool.and_eq_true, decide_eq_true_eq]
      exact ⟨hl.1, ih hl.2⟩

/-- What holds of every listed pair and of the new one holds after a put. -/
theorem all_cellPut {p : Nat × α → Bool} {l : List (Nat × α)} {a : Nat} {v : α} (hl : l.all p = true)
    (h : p (a, v) = true) : (cellPut l a v).all p = true := by
  induction l with
  | nil => simp [cellPut, h]
  | cons c rest ih =>
    simp only [List.all_cons, Bool.and_eq_true] at hl
    simp only [cellPut]
    split
    · simp [h, hl.1, hl.2]
    · split
      · simp [h, hl.2]
      · simp [hl.1, ih hl.2]

/-- What holds of every listed pair holds after a key is taken out. -/
theorem all_cellErase {p : Nat × α → Bool} {l : List (Nat × α)} {a : Nat} (hl : l.all p = true) :
    (cellErase l a).all p = true := by
  induction l with
  | nil => rfl
  | cons c rest ih =>
    simp only [List.all_cons, Bool.and_eq_true] at hl
    simp only [cellErase]
    split
    · exact hl.2
    · simp [hl.1, ih hl.2]

/-- Two strictly rising lists that read alike at every key are the same list. -/
theorem cells_ext {lo : Nat} {l m : List (Nat × α)} (hl : cellsRising lo l = true)
    (hm : cellsRising lo m = true) (h : ∀ a, cellGet? l a = cellGet? m a) : l = m := by
  induction l generalizing lo m with
  | nil =>
    cases m with
    | nil => rfl
    | cons d rest =>
      have := h d.1
      simp [cellGet?] at this
  | cons c rest ih =>
    cases m with
    | nil =>
      have := h c.1
      simp [cellGet?] at this
    | cons d rest' =>
      obtain ⟨k, v⟩ := c
      obtain ⟨k', v'⟩ := d
      simp only [cellsRising, Bool.and_eq_true, decide_eq_true_eq] at hl hm
      have hkk : k = k' := by
        rcases Nat.lt_trichotomy k k' with hlt | heq | hgt
        · have := h k
          simp only [cellGet?, if_true] at this
          rw [if_neg (by omega), cellGet?_lt hm.2 (by omega)] at this
          cases this
        · exact heq
        · have := h k'
          simp only [cellGet?, if_true] at this
          rw [if_neg (by omega), cellGet?_lt hl.2 (by omega)] at this
          cases this
      subst hkk
      have hv := h k
      simp only [cellGet?, if_true, Option.some.injEq] at hv
      subst hv
      congr 1
      refine ih hl.2 hm.2 fun a => ?_
      by_cases hak : a = k
      · subst hak
        rw [cellGet?_lt hl.2 (by omega), cellGet?_lt hm.2 (by omega)]
      · have := h a
        simpa only [cellGet?, if_neg (Ne.symm hak)] using this

end Sys2Proof.Machine
end

