-- ==== Sys2Proof/Laws/Decode.lean ====
section
/-! SUPPORT. The fields of the encoder's words, and what the decoder makes of each. -/
namespace Sys2Proof

@[simp] theorem Reg.ofBits_toBits (r : Reg) : Reg.ofBits r.toBits = r := by
  cases r <;> rfl

@[simp] theorem Reg.toBits_ofBits (b : BitVec 3) : (Reg.ofBits b).toBits = b := by
  revert b
  decide

section Fields

variable (op : BitVec 4) (a b c : BitVec 3) (imm : BitVec 25)

theorem stdWord_opcode : opcodeField (stdWord op a b c) = op := by
  unfold opcodeField stdWord
  ext i hi
  simp only [BitVec.getElem_extractLsb', BitVec.getLsbD_append]
  rw [if_neg (by omega), if_neg (by omega), if_neg (by omega), if_neg (by omega),
    show 28 + i - 3 - 3 - 3 - 19 = i by omega, BitVec.getLsbD_eq_getElem hi]

theorem stdWord_bits_a : (stdWord op a b c).extractLsb' 6 3 = a := by
  unfold stdWord
  ext i hi
  simp only [BitVec.getElem_extractLsb', BitVec.getLsbD_append]
  rw [if_neg (by omega), if_neg (by omega), if_pos (by omega),
    show 6 + i - 3 - 3 = i by omega, BitVec.getLsbD_eq_getElem hi]

theorem stdWord_bits_b : (stdWord op a b c).extractLsb' 3 3 = b := by
  unfold stdWord
  ext i hi
  simp only [BitVec.getElem_extractLsb', BitVec.getLsbD_append]
  rw [if_neg (by omega), if_pos (by omega), show 3 + i - 3 = i by omega, BitVec.getLsbD_eq_getElem hi]

theorem stdWord_bits_c : (stdWord op a b c).extractLsb' 0 3 = c := by
  unfold stdWord
  ext i hi
  simp only [BitVec.getElem_extractLsb', BitVec.getLsbD_append]
  rw [if_pos (by omega), show 0 + i = i by omega, BitVec.getLsbD_eq_getElem hi]

theorem lvWord_opcode : opcodeField (lvWord a imm) = 13#4 := by
  unfold opcodeField lvWord
  ext i hi
  simp only [BitVec.getElem_extractLsb', BitVec.getLsbD_append]
  rw [if_neg (by omega), if_neg (by omega), show 28 + i - 25 - 3 = i by omega, BitVec.getLsbD_eq_getElem hi]

theorem lvWord_bits_a : (lvWord a imm).extractLsb' 25 3 = a := by
  unfold lvWord
  ext i hi
  simp only [BitVec.getElem_extractLsb', BitVec.getLsbD_append]
  rw [if_neg (by omega), if_pos (by omega), show 25 + i - 25 = i by omega, BitVec.getLsbD_eq_getElem hi]

theorem lvWord_bits_imm : (lvWord a imm).extractLsb' 0 25 = imm := by
  unfold lvWord
  ext i hi
  simp only [BitVec.getElem_extractLsb', BitVec.getLsbD_append]
  rw [if_pos (by omega), show 0 + i = i by omega, BitVec.getLsbD_eq_getElem hi]

end Fields

theorem fieldA_stdWord (op : BitVec 4) (a : Reg) (b c : BitVec 3) :
    fieldA (stdWord op a.toBits b c) = a := by
  rw [fieldA, stdWord_bits_a, Reg.ofBits_toBits]

theorem fieldB_stdWord (op : BitVec 4) (a : BitVec 3) (b : Reg) (c : BitVec 3) :
    fieldB (stdWord op a b.toBits c) = b := by
  rw [fieldB, stdWord_bits_b, Reg.ofBits_toBits]

theorem fieldC_stdWord (op : BitVec 4) (a b : BitVec 3) (c : Reg) :
    fieldC (stdWord op a b c.toBits) = c := by
  rw [fieldC, stdWord_bits_c, Reg.ofBits_toBits]

theorem fieldLvA_lvWord (a : Reg) (imm : BitVec 25) : fieldLvA (lvWord a.toBits imm) = a := by
  rw [fieldLvA, lvWord_bits_a, Reg.ofBits_toBits]

/-- An immediate that fits 25 bits survives the load-value format. -/
theorem fieldImm_lvWord (a : BitVec 3) {imm : Word} (h : imm.toNat < 2 ^ 25) :
    fieldImm (lvWord a (imm.truncate 25)) = imm := by
  rw [fieldImm, lvWord_bits_imm]
  refine BitVec.eq_of_toNat_eq ?_
  simp only [BitVec.truncate_eq_setWidth, BitVec.toNat_setWidth]
  omega

end Sys2Proof
end

