-- ==== Sys2Proof/Laws/Memory.lean ====
section
/-! SUPPORT. Segments and the segment table: read after write, what every operation leaves alone, that every
operation keeps the canonical form, and what it does to the storage in use. -/
namespace Sys2Proof.Machine

/-! ### Segments -/

@[simp] theorem Segment.write_len (g : Segment) (o : Nat) (v : Word) : (g.write o v).len = g.len := rfl

@[simp] theorem Segment.zeros_len (n : Nat) : (Segment.zeros n).len = n := rfl

@[simp] theorem Segment.zeros_read (n o : Nat) : (Segment.zeros n).read o = 0 := rfl

@[simp] theorem Segment.ofWords_len (ws : List Word) : (Segment.ofWords ws).len = ws.length := rfl

/-- The parts of a segment's canonical form. -/
theorem Segment.wf_iff (g : Segment) :
    g.wf = true ↔ g.len < 2 ^ 32 ∧ cellsRising 0 g.cells = true ∧
      ∀ c ∈ g.cells, c.1 < g.len ∧ c.2 ≠ 0 := by
  simp [Segment.wf, List.all_eq_true, and_assoc]

theorem Segment.read_write_self {g : Segment} (hg : g.wf = true) (o : Nat) (v : Word) :
    (g.write o v).read o = v := by
  have hr := ((Segment.wf_iff g).1 hg).2.1
  unfold Segment.write Segment.read
  split
  · simp [cellGet?_cellErase_self o hr, *]
  · simp

theorem Segment.read_write_ne (g : Segment) {o p : Nat} (v : Word) (h : p ≠ o) :
    (g.write o v).read p = g.read p := by
  unfold Segment.write Segment.read
  split
  · simp [cellGet?_cellErase_ne _ h]
  · simp [cellGet?_cellPut_ne _ _ h]

theorem Segment.write_wf {g : Segment} (hg : g.wf = true) {o : Nat} (ho : o < g.len) (v : Word) :
    (g.write o v).wf = true := by
  have hg' := hg
  simp only [Segment.wf, Bool.and_eq_true] at hg
  unfold Segment.write
  split
  · simp only [Segment.wf, Bool.and_eq_true]
    exact ⟨⟨hg.1.1, cellsRising_cellErase hg.1.2⟩, all_cellErase hg.2⟩
  · rename_i hv
    simp only [Segment.wf, Bool.and_eq_true]
    refine ⟨⟨hg.1.1, cellsRising_cellPut _ hg.1.2 (Nat.zero_le _)⟩, all_cellPut hg.2 ?_⟩
    simpa [ho] using hv

theorem Segment.zeros_wf {n : Nat} (h : n < 2 ^ 32) : (Segment.zeros n).wf = true := by
  rw [Segment.wf_iff]
  exact ⟨h, rfl, by simp [Segment.zeros]⟩

/-- Two canonical segments of one length that read alike at every offset are the same segment. -/
theorem Segment.ext_read {g g' : Segment} (hg : g.wf = true) (hg' : g'.wf = true) (hlen : g.len = g'.len)
    (h : ∀ o, g.read o = g'.read o) : g = g' := by
  obtain ⟨_, hr, hn⟩ := (Segment.wf_iff g).1 hg
  obtain ⟨_, hr', hn'⟩ := (Segment.wf_iff g').1 hg'
  have hcells : g.cells = g'.cells := by
    refine cells_ext hr hr' fun a => ?_
    have ha := h a
    unfold Segment.read at ha
    cases hx : cellGet? g.cells a <;> cases hy : cellGet? g'.cells a
    · rfl
    · rename_i v
      rw [hx, hy] at ha
      exact absurd ha.symm (hn' _ (cellGet?_mem hy)).2
    · rename_i v
      rw [hx, hy] at ha
      exact absurd ha (hn _ (cellGet?_mem hx)).2
    · rw [hx, hy] at ha
      simpa using ha
  cases g
  cases g'
  simp_all

/-! ### The segment of a word list -/

theorem cellsOfWords_rising (o : Nat) (ws : List Word) : cellsRising o (cellsOfWords o ws) = true := by
  induction ws generalizing o with
  | nil => rfl
  | cons w ws ih =>
    simp only [cellsOfWords]
    split
    · exact cellsRising_mono (Nat.le_succ o) (ih (o + 1))
    · simp [cellsRising, ih (o + 1)]

theorem cellsOfWords_mem {o : Nat} {ws : List Word} {c : Nat × Word} (h : c ∈ cellsOfWords o ws) :
    c.1 < o + ws.length ∧ c.2 ≠ 0 := by
  induction ws generalizing o with
  | nil => simp [cellsOfWords] at h
  | cons w ws ih =>
    simp only [cellsOfWords] at h
    simp only [List.length_cons]
    split at h
    · have := ih h
      exact ⟨by omega, this.2⟩
    · rcases List.mem_cons.1 h with rfl | h
      · exact ⟨by simp, by assumption⟩
      · have := ih h
        exact ⟨by omega, this.2⟩

theorem cellsOfWords_get? (o k : Nat) (ws : List Word) :
    (cellGet? (cellsOfWords o ws) (o + k)).getD 0 = ws.getD k 0 := by
  induction ws generalizing o k with
  | nil => simp [cellsOfWords, cellGet?]
  | cons w ws ih =>
    cases k with
    | zero =>
      simp only [cellsOfWords]
      split
      · rename_i hw
        rw [cellGet?_lt (cellsOfWords_rising (o + 1) ws) (by omega)]
        simp [hw]
      · simp [cellGet?]
    | succ k =>
      have := ih (o + 1) k
      rw [show o + 1 + k = o + (k + 1) by omega] at this
      simp only [cellsOfWords]
      split
      · simpa using this
      · simp only [cellGet?]
        rw [if_neg (by omega)]
        simpa using this

theorem Segment.ofWords_read (ws : List Word) (o : Nat) : (Segment.ofWords ws).read o = ws.getD o 0 := by
  have := cellsOfWords_get? 0 o ws
  simpa [Segment.ofWords, Segment.read] using this

theorem Segment.ofWords_wf {ws : List Word} (h : ws.length < 2 ^ 32) : (Segment.ofWords ws).wf = true := by
  rw [Segment.wf_iff]
  refine ⟨h, cellsOfWords_rising 0 ws, fun c hc => ?_⟩
  have := cellsOfWords_mem hc
  exact ⟨by simpa [Segment.ofWords] using this.1, this.2⟩

/-! ### The segment table -/

@[simp] theorem Memory.setSlot_tableLen (m : Memory) (id : Nat) (g : Segment) :
    (m.setSlot id g).tableLen = m.tableLen := rfl

@[simp] theorem Memory.clearSlot_tableLen (m : Memory) (id : Nat) : (m.clearSlot id).tableLen = m.tableLen := rfl

@[simp] theorem Memory.grow_tableLen (m : Memory) : m.grow.tableLen = m.tableLen + 1 := rfl

/-- The parts of the segment table's canonical form. -/
theorem Memory.wf_iff (m : Memory) :
    m.wf = true ↔ m.tableLen ≤ 2 ^ 32 ∧ cellsRising 0 m.slots = true ∧
      ∀ c ∈ m.slots, c.1 < m.tableLen ∧ c.2.wf = true := by
  simp [Memory.wf, List.all_eq_true, and_assoc]

theorem Memory.slot?_lt {m : Memory} {id : Nat} {g : Segment} (h : m.slot? id = some g) : id < m.tableLen := by
  unfold Memory.slot? at h
  split at h
  · assumption
  · cases h

/-- A mapped segment of a canonical table is canonical. -/
theorem Memory.slot?_wf {m : Memory} (hm : m.wf = true) {id : Nat} {g : Segment} (h : m.slot? id = some g) :
    g.wf = true := by
  have hlt := Memory.slot?_lt h
  unfold Memory.slot? at h
  rw [if_pos hlt] at h
  exact (((Memory.wf_iff m).1 hm).2.2 _ (cellGet?_mem h)).2

theorem Memory.slot?_setSlot_self (m : Memory) {id : Nat} (g : Segment) (h : id < m.tableLen) :
    (m.setSlot id g).slot? id = some g := by
  simp [Memory.slot?, Memory.setSlot, h]

theorem Memory.slot?_setSlot_ne (m : Memory) {id id' : Nat} (g : Segment) (h : id' ≠ id) :
    (m.setSlot id g).slot? id' = m.slot? id' := by
  simp only [Memory.slot?, Memory.setSlot, cellGet?_cellPut_ne _ _ h]

theorem Memory.slot?_clearSlot_self {m : Memory} (hm : m.wf = true) (id : Nat) :
    (m.clearSlot id).slot? id = none := by
  simp only [Memory.slot?, Memory.clearSlot, cellGet?_cellErase_self id ((Memory.wf_iff m).1 hm).2.1,
    ite_self]

theorem Memory.slot?_clearSlot_ne (m : Memory) {id id' : Nat} (h : id' ≠ id) :
    (m.clearSlot id).slot? id' = m.slot? id' := by
  simp only [Memory.slot?, Memory.clearSlot, cellGet?_cellErase_ne _ h]

/-- Growing the table maps nothing: in a canonical table no slot at or above TL is listed. -/
theorem Memory.slot?_grow {m : Memory} (hm : m.wf = true) (id : Nat) : m.grow.slot? id = m.slot? id := by
  have hslots : m.grow.slots = m.slots := rfl
  have hlen := Memory.grow_tableLen m
  unfold Memory.slot?
  rw [hslots]
  by_cases h : id < m.tableLen
  · rw [if_pos h, if_pos (by omega)]
  · rw [if_neg h]
    cases hx : cellGet? m.slots id with
    | none => simp
    | some g => exact absurd (((Memory.wf_iff m).1 hm).2.2 _ (cellGet?_mem hx)).1 h

theorem Memory.setSlot_wf {m : Memory} (hm : m.wf = true) {id : Nat} (hid : id < m.tableLen) {g : Segment}
    (hg : g.wf = true) : (m.setSlot id g).wf = true := by
  simp only [Memory.wf, Bool.and_eq_true] at hm ⊢
  exact ⟨⟨hm.1.1, cellsRising_cellPut _ hm.1.2 (Nat.zero_le _)⟩, all_cellPut hm.2 (by simp [hid, hg])⟩

theorem Memory.clearSlot_wf {m : Memory} (hm : m.wf = true) (id : Nat) : (m.clearSlot id).wf = true := by
  simp only [Memory.wf, Bool.and_eq_true] at hm ⊢
  exact ⟨⟨hm.1.1, cellsRising_cellErase hm.1.2⟩, all_cellErase hm.2⟩

theorem Memory.grow_wf {m : Memory} (hm : m.wf = true) (h : m.tableLen < 2 ^ 32) : m.grow.wf = true := by
  rw [Memory.wf_iff] at hm ⊢
  refine ⟨by simpa using h, hm.2.1, fun c hc => ?_⟩
  have := hm.2.2 c hc
  exact ⟨by simp only [Memory.grow_tableLen]; omega, this.2⟩

theorem Memory.empty_wf : Memory.empty.wf = true := rfl

/-! ### Words and lengths -/

theorem Memory.len?_eq (m : Memory) (id : Nat) : m.len? id = (m.slot? id).map (·.len) := rfl

theorem Memory.word?_eq_some {m : Memory} {id o : Nat} {w : Word} :
    m.word? id o = some w ↔ ∃ g, m.slot? id = some g ∧ o < g.len ∧ g.read o = w := by
  unfold Memory.word?
  cases m.slot? id with
  | none => simp
  | some g => simp

/-- Two tables with the same slot at an id have the same words and length there. -/
theorem Memory.word?_congr {m m' : Memory} {id : Nat} (h : m'.slot? id = m.slot? id) (o : Nat) :
    m'.word? id o = m.word? id o := by
  unfold Memory.word?
  rw [h]

theorem Memory.len?_congr {m m' : Memory} {id : Nat} (h : m'.slot? id = m.slot? id) :
    m'.len? id = m.len? id := by
  rw [Memory.len?_eq, Memory.len?_eq, h]

/-! ### Storage in use -/

/-- A put at a key replaces what the key counted for. -/
theorem sum_cellPut (f : Nat × Segment → Nat) {lo : Nat} {l : List (Nat × Segment)} (a : Nat) (g : Segment)
    (hl : cellsRising lo l = true) :
    ((cellPut l a g).map f).sum + ((cellGet? l a).map fun v => f (a, v)).getD 0 = (l.map f).sum + f (a, g) := by
  induction l generalizing lo with
  | nil => simp [cellPut, cellGet?]
  | cons c rest ih =>
    obtain ⟨k, w⟩ := c
    simp only [cellsRising, Bool.and_eq_true, decide_eq_true_eq] at hl
    simp only [cellPut]
    split
    · rw [cellGet?_lt (lo := k) (by simp [cellsRising, hl.2]) (by assumption)]
      simp only [List.map_cons, List.sum_cons, Option.map_none, Option.getD_none]
      omega
    · split
      · rename_i h
        subst h
        simp only [cellGet?, if_true, List.map_cons, List.sum_cons, Option.map_some, Option.getD_some]
        omega
      · rename_i h
        have := ih hl.2
        simp only [cellGet?, if_neg (Ne.symm h), List.map_cons, List.sum_cons]
        omega

/-- Taking a key out takes away what it counted for. -/
theorem sum_cellErase (f : Nat × Segment → Nat) (l : List (Nat × Segment)) (a : Nat) :
    ((cellErase l a).map f).sum + ((cellGet? l a).map fun v => f (a, v)).getD 0 = (l.map f).sum := by
  induction l with
  | nil => simp [cellErase, cellGet?]
  | cons c rest ih =>
    obtain ⟨k, w⟩ := c
    simp only [cellErase, cellGet?]
    split
    · rename_i h
      subst h
      simp only [List.map_cons, List.sum_cons, Option.map_some, Option.getD_some]
      omega
    · simp only [List.map_cons, List.sum_cons]
      omega

theorem Memory.storageUsed_setSlot {m : Memory} (hm : m.wf = true) {id : Nat} (g : Segment)
    (hid : id < m.tableLen) :
    (m.setSlot id g).storageUsed + (m.len? id).getD 0 = m.storageUsed + g.len := by
  have := sum_cellPut (slotLen m.tableLen) id g ((Memory.wf_iff m).1 hm).2.1
  simp only [Memory.storageUsed, Memory.setSlot, Memory.len?, Memory.slot?, if_pos hid]
  simpa [slotLen, hid] using this

theorem Memory.storageUsed_clearSlot (m : Memory) {id : Nat} (hid : id < m.tableLen) :
    (m.clearSlot id).storageUsed + (m.len? id).getD 0 = m.storageUsed := by
  have := sum_cellErase (slotLen m.tableLen) m.slots id
  simp only [Memory.storageUsed, Memory.clearSlot, Memory.len?, Memory.slot?, if_pos hid]
  simpa [slotLen, hid] using this

theorem Memory.storageUsed_grow {m : Memory} (hm : m.wf = true) : m.grow.storageUsed = m.storageUsed := by
  unfold Memory.storageUsed
  congr 1
  refine List.map_congr_left fun c hc => ?_
  have := (((Memory.wf_iff m).1 hm).2.2 c hc).1
  have hlen := Memory.grow_tableLen m
  unfold slotLen
  rw [if_pos this, if_pos (by omega)]

end Sys2Proof.Machine
end

