-- ==== Sys2Proof/Laws/State.lean ====
section
/-! SUPPORT. One lemma per field per update of the state, and the register file's read-after-write laws. -/
namespace Sys2Proof.Machine

/-! ### `State.setReg` -/

@[simp] theorem State.setReg_regs (s : State) (r : Reg) (v : Word) :
    (s.setReg r v).regs = s.regs.set r v := rfl

@[simp] theorem State.setReg_pc (s : State) (r : Reg) (v : Word) :
    (s.setReg r v).pc = s.pc := rfl

@[simp] theorem State.setReg_mem (s : State) (r : Reg) (v : Word) :
    (s.setReg r v).mem = s.mem := rfl

@[simp] theorem State.setReg_freeList (s : State) (r : Reg) (v : Word) :
    (s.setReg r v).freeList = s.freeList := rfl

@[simp] theorem State.setReg_status (s : State) (r : Reg) (v : Word) :
    (s.setReg r v).status = s.status := rfl

@[simp] theorem State.setReg_cause (s : State) (r : Reg) (v : Word) :
    (s.setReg r v).cause = s.cause := rfl

@[simp] theorem State.setReg_params (s : State) (r : Reg) (v : Word) :
    (s.setReg r v).params = s.params := rfl

@[simp] theorem State.setReg_draws (s : State) (r : Reg) (v : Word) :
    (s.setReg r v).draws = s.draws := rfl

@[simp] theorem State.setReg_host (s : State) (r : Reg) (v : Word) :
    (s.setReg r v).host = s.host := rfl

/-! ### `State.setPc` -/

@[simp] theorem State.setPc_regs (s : State) (x : Word) :
    (s.setPc x).regs = s.regs := rfl

@[simp] theorem State.setPc_pc (s : State) (x : Word) :
    (s.setPc x).pc = x := rfl

@[simp] theorem State.setPc_mem (s : State) (x : Word) :
    (s.setPc x).mem = s.mem := rfl

@[simp] theorem State.setPc_freeList (s : State) (x : Word) :
    (s.setPc x).freeList = s.freeList := rfl

@[simp] theorem State.setPc_status (s : State) (x : Word) :
    (s.setPc x).status = s.status := rfl

@[simp] theorem State.setPc_cause (s : State) (x : Word) :
    (s.setPc x).cause = s.cause := rfl

@[simp] theorem State.setPc_params (s : State) (x : Word) :
    (s.setPc x).params = s.params := rfl

@[simp] theorem State.setPc_draws (s : State) (x : Word) :
    (s.setPc x).draws = s.draws := rfl

@[simp] theorem State.setPc_host (s : State) (x : Word) :
    (s.setPc x).host = s.host := rfl

@[simp] theorem State.setPc_reg (s : State) (x : Word) (q : Reg) :
    (s.setPc x).reg q = s.reg q := rfl

/-! ### `State.setMem` -/

@[simp] theorem State.setMem_regs (s : State) (x : Memory) :
    (s.setMem x).regs = s.regs := rfl

@[simp] theorem State.setMem_pc (s : State) (x : Memory) :
    (s.setMem x).pc = s.pc := rfl

@[simp] theorem State.setMem_mem (s : State) (x : Memory) :
    (s.setMem x).mem = x := rfl

@[simp] theorem State.setMem_freeList (s : State) (x : Memory) :
    (s.setMem x).freeList = s.freeList := rfl

@[simp] theorem State.setMem_status (s : State) (x : Memory) :
    (s.setMem x).status = s.status := rfl

@[simp] theorem State.setMem_cause (s : State) (x : Memory) :
    (s.setMem x).cause = s.cause := rfl

@[simp] theorem State.setMem_params (s : State) (x : Memory) :
    (s.setMem x).params = s.params := rfl

@[simp] theorem State.setMem_draws (s : State) (x : Memory) :
    (s.setMem x).draws = s.draws := rfl

@[simp] theorem State.setMem_host (s : State) (x : Memory) :
    (s.setMem x).host = s.host := rfl

@[simp] theorem State.setMem_reg (s : State) (x : Memory) (q : Reg) :
    (s.setMem x).reg q = s.reg q := rfl

/-! ### `State.setFreeList` -/

@[simp] theorem State.setFreeList_regs (s : State) (x : List Word) :
    (s.setFreeList x).regs = s.regs := rfl

@[simp] theorem State.setFreeList_pc (s : State) (x : List Word) :
    (s.setFreeList x).pc = s.pc := rfl

@[simp] theorem State.setFreeList_mem (s : State) (x : List Word) :
    (s.setFreeList x).mem = s.mem := rfl

@[simp] theorem State.setFreeList_freeList (s : State) (x : List Word) :
    (s.setFreeList x).freeList = x := rfl

@[simp] theorem State.setFreeList_status (s : State) (x : List Word) :
    (s.setFreeList x).status = s.status := rfl

@[simp] theorem State.setFreeList_cause (s : State) (x : List Word) :
    (s.setFreeList x).cause = s.cause := rfl

@[simp] theorem State.setFreeList_params (s : State) (x : List Word) :
    (s.setFreeList x).params = s.params := rfl

@[simp] theorem State.setFreeList_draws (s : State) (x : List Word) :
    (s.setFreeList x).draws = s.draws := rfl

@[simp] theorem State.setFreeList_host (s : State) (x : List Word) :
    (s.setFreeList x).host = s.host := rfl

@[simp] theorem State.setFreeList_reg (s : State) (x : List Word) (q : Reg) :
    (s.setFreeList x).reg q = s.reg q := rfl

/-! ### `State.setStatus` -/

@[simp] theorem State.setStatus_regs (s : State) (x : Status) :
    (s.setStatus x).regs = s.regs := rfl

@[simp] theorem State.setStatus_pc (s : State) (x : Status) :
    (s.setStatus x).pc = s.pc := rfl

@[simp] theorem State.setStatus_mem (s : State) (x : Status) :
    (s.setStatus x).mem = s.mem := rfl

@[simp] theorem State.setStatus_freeList (s : State) (x : Status) :
    (s.setStatus x).freeList = s.freeList := rfl

@[simp] theorem State.setStatus_status (s : State) (x : Status) :
    (s.setStatus x).status = x := rfl

@[simp] theorem State.setStatus_cause (s : State) (x : Status) :
    (s.setStatus x).cause = s.cause := rfl

@[simp] theorem State.setStatus_params (s : State) (x : Status) :
    (s.setStatus x).params = s.params := rfl

@[simp] theorem State.setStatus_draws (s : State) (x : Status) :
    (s.setStatus x).draws = s.draws := rfl

@[simp] theorem State.setStatus_host (s : State) (x : Status) :
    (s.setStatus x).host = s.host := rfl

@[simp] theorem State.setStatus_reg (s : State) (x : Status) (q : Reg) :
    (s.setStatus x).reg q = s.reg q := rfl

/-! ### `State.countDraw` -/

@[simp] theorem State.countDraw_regs (s : State) :
    (s.countDraw).regs = s.regs := rfl

@[simp] theorem State.countDraw_pc (s : State) :
    (s.countDraw).pc = s.pc := rfl

@[simp] theorem State.countDraw_mem (s : State) :
    (s.countDraw).mem = s.mem := rfl

@[simp] theorem State.countDraw_freeList (s : State) :
    (s.countDraw).freeList = s.freeList := rfl

@[simp] theorem State.countDraw_status (s : State) :
    (s.countDraw).status = s.status := rfl

@[simp] theorem State.countDraw_cause (s : State) :
    (s.countDraw).cause = s.cause := rfl

@[simp] theorem State.countDraw_params (s : State) :
    (s.countDraw).params = s.params := rfl

@[simp] theorem State.countDraw_draws (s : State) :
    (s.countDraw).draws = s.draws + 1 := rfl

@[simp] theorem State.countDraw_host (s : State) :
    (s.countDraw).host = s.host := rfl

@[simp] theorem State.countDraw_reg (s : State) (q : Reg) :
    (s.countDraw).reg q = s.reg q := rfl

/-! ### `State.setHost` -/

@[simp] theorem State.setHost_regs (s : State) (x : HostPort) :
    (s.setHost x).regs = s.regs := rfl

@[simp] theorem State.setHost_pc (s : State) (x : HostPort) :
    (s.setHost x).pc = s.pc := rfl

@[simp] theorem State.setHost_mem (s : State) (x : HostPort) :
    (s.setHost x).mem = s.mem := rfl

@[simp] theorem State.setHost_freeList (s : State) (x : HostPort) :
    (s.setHost x).freeList = s.freeList := rfl

@[simp] theorem State.setHost_status (s : State) (x : HostPort) :
    (s.setHost x).status = s.status := rfl

@[simp] theorem State.setHost_cause (s : State) (x : HostPort) :
    (s.setHost x).cause = s.cause := rfl

@[simp] theorem State.setHost_params (s : State) (x : HostPort) :
    (s.setHost x).params = s.params := rfl

@[simp] theorem State.setHost_draws (s : State) (x : HostPort) :
    (s.setHost x).draws = s.draws := rfl

@[simp] theorem State.setHost_host (s : State) (x : HostPort) :
    (s.setHost x).host = x := rfl

@[simp] theorem State.setHost_reg (s : State) (x : HostPort) (q : Reg) :
    (s.setHost x).reg q = s.reg q := rfl

/-! ### `State.toFatal` -/

@[simp] theorem State.toFatal_regs (s : State) (x : Cause) :
    (s.toFatal x).regs = s.regs := rfl

@[simp] theorem State.toFatal_pc (s : State) (x : Cause) :
    (s.toFatal x).pc = s.pc := rfl

@[simp] theorem State.toFatal_mem (s : State) (x : Cause) :
    (s.toFatal x).mem = s.mem := rfl

@[simp] theorem State.toFatal_freeList (s : State) (x : Cause) :
    (s.toFatal x).freeList = s.freeList := rfl

@[simp] theorem State.toFatal_status (s : State) (x : Cause) :
    (s.toFatal x).status = .fatal := rfl

@[simp] theorem State.toFatal_cause (s : State) (x : Cause) :
    (s.toFatal x).cause = x := rfl

@[simp] theorem State.toFatal_params (s : State) (x : Cause) :
    (s.toFatal x).params = s.params := rfl

@[simp] theorem State.toFatal_draws (s : State) (x : Cause) :
    (s.toFatal x).draws = s.draws := rfl

@[simp] theorem State.toFatal_host (s : State) (x : Cause) :
    (s.toFatal x).host = s.host := rfl

@[simp] theorem State.toFatal_reg (s : State) (x : Cause) (q : Reg) :
    (s.toFatal x).reg q = s.reg q := rfl

/-! ### Registers -/

@[simp] theorem RegFile.get_set_self (f : RegFile) (r : Reg) (v : Word) : (f.set r v).get r = v := by
  cases r <;> rfl

@[simp] theorem RegFile.get_set_ne (f : RegFile) {r q : Reg} (v : Word) (h : q ≠ r) :
    (f.set r v).get q = f.get q := by
  cases r <;> cases q <;> first | rfl | exact absurd rfl h

@[simp] theorem RegFile.get_zero (r : Reg) : RegFile.zero.get r = 0 := by
  cases r <;> rfl

@[simp] theorem State.setReg_reg_self (s : State) (r : Reg) (v : Word) : (s.setReg r v).reg r = v :=
  RegFile.get_set_self s.regs r v

@[simp] theorem State.setReg_reg_ne (s : State) {r q : Reg} (v : Word) (h : q ≠ r) :
    (s.setReg r v).reg q = s.reg q :=
  RegFile.get_set_ne s.regs v h

/-- Two register files with the same eight values are the same. -/
theorem RegFile.ext_get {f g : RegFile} (h : ∀ r, f.get r = g.get r) : f = g := by
  cases f
  cases g
  have h0 := h .r0
  have h1 := h .r1
  have h2 := h .r2
  have h3 := h .r3
  have h4 := h .r4
  have h5 := h .r5
  have h6 := h .r6
  have h7 := h .r7
  simp only [RegFile.get] at h0 h1 h2 h3 h4 h5 h6 h7
  subst h0 h1 h2 h3 h4 h5 h6 h7
  rfl

/-! ### The fatal condition and the capacity -/

@[simp] theorem orFatal_ok (s t : State) : orFatal s (.ok t) = .next t := rfl

@[simp] theorem orFatal_error (s : State) (c : Cause) : orFatal s (.error c) = .next (s.toFatal c) := rfl

@[simp] theorem raiseFatal_eq (c : Cause) (s : State) : raiseFatal c s = .next (s.toFatal c) := rfl

@[simp] theorem holdCycle_eq (s : State) : holdCycle s = .next (s.setPc (s.pc - 1)) := rfl

/-- A request within the capacity stays within it when it gets smaller. -/
theorem fits_of_le {p : Params} {m n : Nat} (h : m ≤ n) (hn : fits p n = true) : fits p m = true := by
  unfold fits at *
  split at hn
  · rfl
  · simp only [decide_eq_true_eq] at *
    exact h.trans hn

end Sys2Proof.Machine
end

