-- ==== Sys2Proof/Laws/Ops.lean ====
section
/-! SUPPORT. For each shared operation, once, everything it can do. -/
namespace Sys2Proof.Machine

/-! ### Word accesses -/

theorem segRead_ok_iff {s : State} {seg off v : Word} :
    segRead s seg off = .ok v ↔ s.mem.word? seg.toNat off.toNat = some v := by
  unfold segRead Memory.word?
  cases s.mem.slot? seg.toNat with
  | none => simp
  | some g =>
    by_cases h : off.toNat < g.len <;> simp [h]

theorem segRead_error_iff {s : State} {seg off : Word} {c : Cause} :
    segRead s seg off = .error c ↔
      (s.mem.slot? seg.toNat = none ∧ c = .unmappedSegment) ∨
        (∃ n, s.mem.len? seg.toNat = some n ∧ n ≤ off.toNat ∧ c = .offsetOutOfBounds) := by
  unfold segRead Memory.len?
  cases s.mem.slot? seg.toNat with
  | none => simp [eq_comm]
  | some g =>
    by_cases h : off.toNat < g.len
    · simp only [h, if_true, Option.map_some]
      constructor
      · intro h'
        cases h'
      · rintro (⟨h', _⟩ | ⟨n, hn, hle, _⟩)
        · cases h'
        · cases hn
          omega
    · simp only [h, if_false, Option.map_some]
      constructor
      · intro h'
        cases h'
        exact .inr ⟨_, rfl, by omega, rfl⟩
      · rintro (⟨h', _⟩ | ⟨n, _, _, rfl⟩)
        · cases h'
        · rfl

/-- A write stores one word of one mapped segment, whose segment it replaces, and does nothing else. -/
theorem segWrite_ok_iff {s t : State} {seg off v : Word} :
    segWrite s seg off v = .ok t ↔
      ∃ g, s.mem.slot? seg.toNat = some g ∧ off.toNat < g.len ∧
        t = s.setMem (s.mem.setSlot seg.toNat (g.write off.toNat v)) := by
  unfold segWrite
  cases s.mem.slot? seg.toNat with
  | none => simp
  | some g =>
    by_cases h : off.toNat < g.len <;> simp [h, eq_comm (a := t)]

/-- A write that cannot be done fails as the read of the same word does. -/
theorem segWrite_error_iff {s : State} {seg off v : Word} {c : Cause} :
    segWrite s seg off v = .error c ↔ segRead s seg off = .error c := by
  unfold segWrite segRead
  cases s.mem.slot? seg.toNat with
  | none => simp
  | some g =>
    by_cases h : off.toNat < g.len <;> simp [h]

theorem segWrite_wf {s t : State} {seg off v : Word} (hs : s.mem.wf = true)
    (h : segWrite s seg off v = .ok t) : t.mem.wf = true := by
  obtain ⟨g, hg, ho, rfl⟩ := segWrite_ok_iff.1 h
  exact Memory.setSlot_wf hs (Memory.slot?_lt hg) (Segment.write_wf (Memory.slot?_wf hs hg) ho v)

/-- Read after write, at the word written and at every other. -/
theorem segWrite_word? {s t : State} {seg off v : Word} (hs : s.mem.wf = true)
    (h : segWrite s seg off v = .ok t) (id o : Nat) :
    t.mem.word? id o = if id = seg.toNat ∧ o = off.toNat then some v else s.mem.word? id o := by
  obtain ⟨g, hg, ho, rfl⟩ := segWrite_ok_iff.1 h
  have hlt := Memory.slot?_lt hg
  by_cases hid : id = seg.toNat
  · subst hid
    have hslot := Memory.slot?_setSlot_self s.mem (g.write off.toNat v) hlt
    by_cases hoff : o = off.toNat
    · subst hoff
      rw [if_pos ⟨rfl, rfl⟩]
      exact Memory.word?_eq_some.2
        ⟨_, hslot, by simpa using ho, Segment.read_write_self (Memory.slot?_wf hs hg) _ _⟩
    · rw [if_neg (by simp [hoff])]
      simp only [State.setMem_mem, Memory.word?, hslot, hg, Segment.write_len,
        Segment.read_write_ne g v hoff]
  · rw [if_neg (by simp [hid])]
    exact Memory.word?_congr (Memory.slot?_setSlot_ne s.mem _ hid) o

theorem segWrite_len? {s t : State} {seg off v : Word} (h : segWrite s seg off v = .ok t) (id : Nat) :
    t.mem.len? id = s.mem.len? id := by
  obtain ⟨g, hg, ho, rfl⟩ := segWrite_ok_iff.1 h
  by_cases hid : id = seg.toNat
  · subst hid
    rw [State.setMem_mem, Memory.len?_eq, Memory.len?_eq,
      Memory.slot?_setSlot_self s.mem _ (Memory.slot?_lt hg), hg]
    rfl
  · exact Memory.len?_congr (Memory.slot?_setSlot_ne s.mem _ hid)

/-! ### The allocator -/

/-- The pick is a position of a non-empty free list. -/
theorem pickIndex_lt {s : State} (h : s.freeList ≠ []) : pickIndex s < s.freeList.length := by
  have hpos := List.length_pos_iff.2 h
  unfold pickIndex
  split
  · exact hpos
  · exact Nat.mod_lt _ hpos

theorem pickIndex_oldest {s : State} (h : s.params.freePick = .oldest) : pickIndex s = 0 := by
  simp [pickIndex, h]

/-- Everything MAP's allocation can do: reuse the picked id, or take the fresh one. -/
theorem segMap_ok {s t : State} {n id : Word} (h : segMap s n = .ok (id, t)) :
    fits s.params (s.mem.storageUsed + n.toNat) = true ∧
      ((s.freeList ≠ [] ∧ s.freeList[pickIndex s]? = some id ∧
          t = ((s.setMem (s.mem.setSlot id.toNat (Segment.zeros n.toNat))).setFreeList
            (s.freeList.eraseIdx (pickIndex s))).countDraw) ∨
        (s.freeList = [] ∧ s.mem.tableLen < 2 ^ 32 ∧ id = BitVec.ofNat 32 s.mem.tableLen ∧
          t = s.setMem (s.mem.grow.setSlot s.mem.tableLen (Segment.zeros n.toNat)))) := by
  unfold segMap at h
  split at h
  · refine ⟨by assumption, ?_⟩
    split at h
    · rename_i id' hid
      cases h
      refine .inl ⟨?_, hid, rfl⟩
      rintro hnil
      simp [hnil] at hid
    · rename_i hnone
      split at h
      · rename_i hlt
        cases h
        refine .inr ⟨?_, hlt, rfl, rfl⟩
        by_contra hne
        have := pickIndex_lt hne
        rw [List.getElem?_eq_none_iff] at hnone
        omega
      · cases h
  · cases h

/-- MAP fails for one cause, and exactly when storage or ids run out. -/
theorem segMap_error_iff {s : State} {n : Word} {c : Cause} :
    segMap s n = .error c ↔ c = .resourceExhausted ∧
      (fits s.params (s.mem.storageUsed + n.toNat) = false ∨
        (s.freeList = [] ∧ 2 ^ 32 ≤ s.mem.tableLen)) := by
  unfold segMap
  by_cases hf : fits s.params (s.mem.storageUsed + n.toNat) = true
  · rw [if_pos hf]
    by_cases hnil : s.freeList = []
    · have : s.freeList[pickIndex s]? = none := by simp [hnil]
      rw [this]
      by_cases hlt : s.mem.tableLen < 2 ^ 32
      · simp only [if_pos hlt, hf, Nat.not_le_of_lt hlt]
        simp
      · simp only [if_neg hlt, hnil, Nat.le_of_not_lt hlt]
        simp [eq_comm (a := c)]
    · have := pickIndex_lt hnil
      rw [List.getElem?_eq_getElem this]
      simp [hf, hnil]
  · rw [if_neg hf]
    simp [hf, eq_comm (a := c)]

theorem segMap_wf {s t : State} {n id : Word} (hs : s.mem.wf = true)
    (hfree : ∀ i ∈ s.freeList, i.toNat < s.mem.tableLen) (h : segMap s n = .ok (id, t)) :
    t.mem.wf = true := by
  have hz := Segment.zeros_wf n.isLt
  rcases (segMap_ok h).2 with ⟨_, hget, rfl⟩ | ⟨_, hlt, rfl, rfl⟩
  · exact Memory.setSlot_wf hs (hfree _ (List.mem_of_getElem? hget)) hz
  · exact Memory.setSlot_wf (Memory.grow_wf hs hlt) (by simp) hz

/-- Everything UNMAP's release can do. -/
theorem segUnmap_ok_iff {s t : State} {id : Word} :
    segUnmap s id = .ok t ↔ id ≠ 0 ∧ s.mem.slot? id.toNat ≠ none ∧
      t = (s.setMem (s.mem.clearSlot id.toNat)).setFreeList (s.freeList ++ [id]) := by
  unfold segUnmap
  by_cases h0 : id = 0
  · simp [h0]
  · rw [if_neg h0]
    have h0' : ¬ id = 0#32 := h0
    cases s.mem.slot? id.toNat <;> simp [h0', eq_comm (a := t)]

theorem segUnmap_error_iff {s : State} {id : Word} {c : Cause} :
    segUnmap s id = .error c ↔ c = .badUnmap ∧ (id = 0 ∨ s.mem.slot? id.toNat = none) := by
  unfold segUnmap
  by_cases h0 : id = 0
  · simp [h0, eq_comm (a := c)]
  · rw [if_neg h0]
    have h0' : ¬ id = 0#32 := h0
    cases s.mem.slot? id.toNat <;> simp [h0', eq_comm (a := c)]

theorem segUnmap_wf {s t : State} {id : Word} (hs : s.mem.wf = true) (h : segUnmap s id = .ok t) :
    t.mem.wf = true := by
  obtain ⟨_, _, rfl⟩ := segUnmap_ok_iff.1 h
  exact Memory.clearSlot_wf hs _

/-- Everything LOADP's replacement can do: segment 0 becomes the source segment's value. -/
theorem segReplaceZero_ok_iff {s t : State} {id : Word} :
    segReplaceZero s id = .ok t ↔ ∃ g, s.mem.slot? id.toNat = some g ∧
      fits s.params (s.mem.storageUsed - (s.mem.len? 0).getD 0 + g.len) = true ∧
        t = s.setMem (s.mem.setSlot 0 g) := by
  unfold segReplaceZero
  cases s.mem.slot? id.toNat with
  | none => simp
  | some g =>
    by_cases h : fits s.params (s.mem.storageUsed - (s.mem.len? 0).getD 0 + g.len) = true
      <;> simp [h, eq_comm (a := t)]

theorem segReplaceZero_error_iff {s : State} {id : Word} {c : Cause} :
    segReplaceZero s id = .error c ↔
      (s.mem.slot? id.toNat = none ∧ c = .unmappedSegment) ∨
        (∃ g, s.mem.slot? id.toNat = some g ∧
          fits s.params (s.mem.storageUsed - (s.mem.len? 0).getD 0 + g.len) = false ∧
            c = .resourceExhausted) := by
  unfold segReplaceZero
  cases s.mem.slot? id.toNat with
  | none => simp [eq_comm (a := c)]
  | some g =>
    by_cases h : fits s.params (s.mem.storageUsed - (s.mem.len? 0).getD 0 + g.len) = true
      <;> simp [h, eq_comm (a := c)]

theorem segReplaceZero_wf {s t : State} {id : Word} (hs : s.mem.wf = true)
    (h : segReplaceZero s id = .ok t) : t.mem.wf = true := by
  obtain ⟨g, hg, _, rfl⟩ := segReplaceZero_ok_iff.1 h
  exact Memory.setSlot_wf hs (Nat.lt_of_le_of_lt (Nat.zero_le _) (Memory.slot?_lt hg))
    (Memory.slot?_wf hs hg)

/-! ### The byte streams -/

/-- Everything an OUT offer can do: hold, append the byte, or fail. -/
theorem hostOut_cases (s : State) (b : Byte) :
    (s.host.outAnswers = [] ∧ hostOut s b = .next (s.setPc (s.pc - 1))) ∨
    (∃ rest, s.host.outAnswers = .accept :: rest ∧
      hostOut s b = .next
        (s.setHost { s.host with outAnswers := rest, output := s.host.output ++ [b] })) ∨
    (∃ rest, s.host.outAnswers = .fail :: rest ∧
      hostOut s b = .next ((s.setHost { s.host with outAnswers := rest }).toFatal .outputFailure)) := by
  unfold hostOut
  split
  · rename_i h
    exact .inl ⟨h, rfl⟩
  · rename_i rest h
    exact .inr (.inl ⟨rest, h, rfl⟩)
  · rename_i rest h
    exact .inr (.inr ⟨rest, h, rfl⟩)

/-- Everything an IN request can do: hold, write the byte or the EOF word, or fail. -/
theorem hostIn_cases (s : State) (r : Reg) :
    (s.host.inAnswers = [] ∧ hostIn s r = .next (s.setPc (s.pc - 1))) ∨
    (∃ b rest, s.host.inAnswers = .byte b :: rest ∧
      hostIn s r = .next ((s.setHost { s.host with inAnswers := rest }).setReg r (wordOfByte b))) ∨
    (∃ rest, s.host.inAnswers = .eof :: rest ∧
      hostIn s r = .next ((s.setHost { s.host with inAnswers := rest }).setReg r eofWord)) ∨
    (∃ rest, s.host.inAnswers = .fail :: rest ∧
      hostIn s r = .next ((s.setHost { s.host with inAnswers := rest }).toFatal .inputFailure)) := by
  unfold hostIn
  split
  · rename_i h
    exact .inl ⟨h, rfl⟩
  · rename_i b rest h
    exact .inr (.inl ⟨b, rest, h, rfl⟩)
  · rename_i rest h
    exact .inr (.inr (.inl ⟨rest, h, rfl⟩))
  · rename_i rest h
    exact .inr (.inr (.inr ⟨rest, h, rfl⟩))

end Sys2Proof.Machine
end

