-- ==== Sys2Proof/Laws/Step.lean ====
section
/-! SUPPORT. What an image load, a cycle and a step can do. -/
namespace Sys2Proof.Machine

/-! ### The image -/

theorem imageWords_length (bytes : List Byte) : (imageWords bytes).length = bytes.length / 4 := by
  induction bytes using imageWords.induct with
  | case1 b0 b1 b2 b3 rest ih =>
    simp only [imageWords, List.length_cons, ih]
    omega
  | case2 bytes h =>
    have hlen : bytes.length < 4 := by
      match bytes, h with
      | [], _ => simp
      | [_], _ => simp
      | [_, _], _ => simp
      | [_, _, _], _ => simp
      | b0 :: b1 :: b2 :: b3 :: rest, h => exact (h b0 b1 b2 b3 rest rfl).elim
    simp only [imageWords, List.length_nil]
    omega

/-- Big-endian assembly as a number (20_memory.md R54). -/
theorem wordOfBytes_toNat (b0 b1 b2 b3 : Byte) :
    (wordOfBytes b0 b1 b2 b3).toNat =
      b0.toNat * 2 ^ 24 + b1.toNat * 2 ^ 16 + b2.toNat * 2 ^ 8 + b3.toNat := by
  have h1 := b1.isLt
  have h2 := b2.isLt
  have h3 := b3.isLt
  unfold wordOfBytes
  simp only [BitVec.toNat_append]
  rw [← Nat.shiftLeft_add_eq_or_of_lt h1, ← Nat.shiftLeft_add_eq_or_of_lt h2,
    ← Nat.shiftLeft_add_eq_or_of_lt h3]
  simp only [Nat.shiftLeft_eq]
  omega

theorem mem_hintIds {hint : Nat} {id : Word} (h : hint ≤ 2 ^ 32) :
    id ∈ hintIds hint ↔ id ≠ 0 ∧ id.toNat < hint := by
  simp only [hintIds, List.mem_map, List.mem_range]
  constructor
  · rintro ⟨k, hk, rfl⟩
    have : (BitVec.ofNat 32 (k + 1)).toNat = k + 1 := by
      rw [BitVec.toNat_ofNat, Nat.mod_eq_of_lt (by omega)]
    refine ⟨fun h0 => ?_, by omega⟩
    rw [h0] at this
    simp at this
  · rintro ⟨h0, hlt⟩
    have hpos : id.toNat ≠ 0 := fun h' => h0 (BitVec.eq_of_toNat_eq (by simpa using h'))
    refine ⟨id.toNat - 1, by omega, ?_⟩
    rw [show id.toNat - 1 + 1 = id.toNat by omega, BitVec.ofNat_toNat, BitVec.setWidth_eq]

theorem hintIds_nodup {hint : Nat} (h : hint ≤ 2 ^ 32) : (hintIds hint).Nodup := by
  refine List.Nodup.map_on ?_ List.nodup_range
  intro x hx y hy hxy
  rw [List.mem_range] at hx hy
  have := congrArg BitVec.toNat hxy
  rw [BitVec.toNat_ofNat, BitVec.toNat_ofNat, Nat.mod_eq_of_lt (by omega), Nat.mod_eq_of_lt (by omega)] at this
  omega

theorem imageMemory_slot?_zero (hint : Nat) (bytes : List Byte) :
    (imageMemory hint bytes).slot? 0 = some (Segment.ofWords (imageWords bytes)) := by
  simp [Memory.slot?, imageMemory, cellGet?]

theorem imageMemory_slot?_pos (hint : Nat) (bytes : List Byte) {id : Nat} (h : id ≠ 0) :
    (imageMemory hint bytes).slot? id = none := by
  simp [Memory.slot?, imageMemory, cellGet?, Ne.symm h]

theorem imageMemory_wf {hint : Nat} {bytes : List Byte} (hh : hint ≤ 2 ^ 32)
    (hb : bytes.length / 4 < 2 ^ 32) : (imageMemory hint bytes).wf = true := by
  rw [Memory.wf_iff]
  refine ⟨by simp only [imageMemory]; omega, rfl, fun c hc => ?_⟩
  simp only [imageMemory, List.mem_singleton] at hc
  subst hc
  exact ⟨by simp [imageMemory], Segment.ofWords_wf (by rw [imageWords_length]; exact hb)⟩

/-- Everything an image load can do. -/
theorem loadImage_cases (s : State) (bytes : List Byte) :
    ((bytes.length % 4 ≠ 0 ∨ 2 ^ 32 - 1 < bytes.length / 4) ∧
      loadImage s bytes = s.toFatal .invalidImage) ∨
    ((bytes.length % 4 = 0 ∧ bytes.length / 4 < 2 ^ 32) ∧ fits s.params (bytes.length / 4) = true ∧
      loadImage s bytes =
        { s with
          regs := .zero, pc := 0, mem := imageMemory s.params.freeListHint bytes,
          freeList := hintIds s.params.freeListHint, status := .running, cause := .none }) ∨
    ((bytes.length % 4 = 0 ∧ bytes.length / 4 < 2 ^ 32) ∧ fits s.params (bytes.length / 4) = false ∧
      loadImage s bytes = s.toFatal .resourceExhausted) := by
  unfold loadImage
  by_cases h : bytes.length % 4 ≠ 0 ∨ 2 ^ 32 - 1 < bytes.length / 4
  · exact .inl ⟨h, by rw [if_pos h]⟩
  · rw [if_neg h]
    push Not at h
    by_cases hf : fits s.params (bytes.length / 4) = true
    · exact .inr (.inl ⟨⟨h.1, by omega⟩, hf, by rw [if_pos hf]⟩)
    · exact .inr (.inr ⟨⟨h.1, by omega⟩, by simpa using hf, by rw [if_neg hf]⟩)

/-! ### The cycle -/

@[simp] theorem advancePc_eq (s : State) : advancePc s = s.setPc (s.pc + 1) := rfl

theorem fetchWord_ok_iff {s : State} {w : Word} :
    fetchWord s = .ok w ↔ s.mem.word? 0 s.pc.toNat = some w := by
  unfold fetchWord
  rw [segRead_ok_iff]
  rfl

/-- Everything the end check can do. -/
theorem endCheck_cases (s : State) :
    (s.mem.slot? 0 = none ∧ endCheck s = none) ∨
    (∃ g, s.mem.slot? 0 = some g ∧ s.pc.toNat < g.len ∧ endCheck s = none) ∨
    (∃ g, s.mem.slot? 0 = some g ∧ g.len < s.pc.toNat ∧ s.params.loadpOor = .fatal ∧
      endCheck s = some (s.toFatal .pcOutOfRange)) ∨
    (∃ g, s.mem.slot? 0 = some g ∧ g.len ≤ s.pc.toNat ∧
      ¬(g.len < s.pc.toNat ∧ s.params.loadpOor = .fatal) ∧
      endCheck s = some (s.setStatus .ended)) := by
  unfold endCheck
  rw [Memory.len?_eq]
  cases s.mem.slot? 0 with
  | none => exact .inl ⟨rfl, rfl⟩
  | some g =>
    simp only [Option.map_some]
    by_cases h : g.len ≤ s.pc.toNat
    · by_cases h' : g.len < s.pc.toNat ∧ s.params.loadpOor = .fatal
      · exact .inr (.inr (.inl ⟨g, rfl, h'.1, h'.2, by rw [if_pos h, if_pos h']⟩))
      · exact .inr (.inr (.inr ⟨g, rfl, h, h', by rw [if_pos h, if_neg h']⟩))
    · exact .inr (.inl ⟨g, rfl, by omega, by rw [if_neg h]⟩)

/-- Everything a cycle can do. -/
theorem cycle_cases (s : State) :
    (∃ t, endCheck s = some t ∧ cycle s = .next t) ∨
    (s.mem.slot? 0 = none ∧ cycle s = .next (s.toFatal .unmappedSegment)) ∨
    (∃ w, s.mem.word? 0 s.pc.toNat = some w ∧ decode w = .error .illegalOpcode ∧
      cycle s = .next ((s.setPc (s.pc + 1)).toFatal .illegalOpcode)) ∨
    (∃ w i, s.mem.word? 0 s.pc.toNat = some w ∧ decode w = .ok i ∧
      cycle s = exec i (s.setPc (s.pc + 1))) := by
  unfold cycle
  rcases endCheck_cases s with ⟨h0, he⟩ | ⟨g, h0, hlt, he⟩ | ⟨g, h0, _, _, he⟩ | ⟨g, h0, _, _, he⟩
  · refine .inr (.inl ⟨h0, ?_⟩)
    have : fetchWord s = .error .unmappedSegment := segRead_error_iff.2 (.inl ⟨h0, rfl⟩)
    rw [he, this]
    rfl
  · have hw : s.mem.word? 0 s.pc.toNat = some (g.read s.pc.toNat) :=
      Memory.word?_eq_some.2 ⟨g, h0, hlt, rfl⟩
    rw [he, fetchWord_ok_iff.2 hw]
    cases hd : decode (g.read s.pc.toNat) with
    | ok i => exact .inr (.inr (.inr ⟨_, i, hw, hd, by simp only [hd]; rfl⟩))
    | error e =>
      cases e
      exact .inr (.inr (.inl ⟨_, hw, hd, by simp only [hd]; rfl⟩))
  · exact .inl ⟨_, he, by rw [he]⟩
  · exact .inl ⟨_, he, by rw [he]⟩

/-- Everything a step can do. -/
theorem step_cases (s : State) :
    (s.host.resetLine = true ∧ step s = .next (resetBlock s)) ∨
    (s.host.resetLine = false ∧ ∃ bytes, s.host.image = some bytes ∧ step s = .next (takeImage s bytes)) ∨
    (s.host.resetLine = false ∧ s.host.image = none ∧
      (s.status = .idle ∨ s.status = .halted ∨ s.status = .ended) ∧ step s = .next s) ∨
    (s.cycling ∧ step s = cycle s) ∨
    (s.host.resetLine = false ∧ s.host.image = none ∧ s.status = .fatal ∧
      step s = .fault (.fatalStop s.cause)) := by
  unfold step State.cycling
  cases hr : s.host.resetLine with
  | true => exact .inl ⟨rfl, rfl⟩
  | false =>
    cases hi : s.host.image with
    | some bytes => exact .inr (.inl ⟨rfl, bytes, rfl, rfl⟩)
    | none =>
      cases hs : s.status
      · exact .inr (.inr (.inl ⟨rfl, rfl, .inl rfl, rfl⟩))
      · exact .inr (.inr (.inr (.inl ⟨⟨rfl, rfl, rfl⟩, rfl⟩)))
      · exact .inr (.inr (.inl ⟨rfl, rfl, .inr (.inl rfl), rfl⟩))
      · exact .inr (.inr (.inl ⟨rfl, rfl, .inr (.inr rfl), rfl⟩))
      · exact .inr (.inr (.inr (.inr ⟨rfl, rfl, rfl, rfl⟩)))

end Sys2Proof.Machine
end

