-- ==== Sys2Proof/Laws/Exec.lean ====
section
/-! SUPPORT. What an instruction can do to the segment table, the free list, STATUS and the parameters, what the
invariant gives its allocator, and that a change elsewhere keeps the invariant. -/
namespace Sys2Proof.Machine

/-! ### Slots, lengths and words -/

theorem Memory.slot?_of_len?_none {m : Memory} {id : Nat} (h : m.len? id = none) : m.slot? id = none := by
  rw [Memory.len?_eq] at h
  simpa using h

theorem Memory.len?_of_slot?_none {m : Memory} {id : Nat} (h : m.slot? id = none) : m.len? id = none := by
  rw [Memory.len?_eq, h]
  rfl

theorem Memory.slot?_of_len?_some {m : Memory} {id n : Nat} (h : m.len? id = some n) :
    ∃ g, m.slot? id = some g ∧ g.len = n := by
  rw [Memory.len?_eq] at h
  simpa using h

theorem Memory.len?_of_slot?_some {m : Memory} {id : Nat} {g : Segment} (h : m.slot? id = some g) :
    m.len? id = some g.len := by
  rw [Memory.len?_eq, h]
  rfl

theorem Memory.word?_of_slot?_none {m : Memory} {id : Nat} (h : m.slot? id = none) (o : Nat) :
    m.word? id o = none := by
  unfold Memory.word?
  rw [h]

/-! ### The cycle of a RUNNING block -/

/-- With STATUS RUNNING and no host transaction pending, a step is a cycle. -/
theorem step_of_cycling {s : State} (h : s.cycling) : step s = cycle s := by
  rcases step_cases s with ⟨h', _⟩ | ⟨_, _, h', _⟩ | ⟨_, _, h', _⟩ | ⟨_, h'⟩ | ⟨_, _, h', _⟩
  · exact absurd (h.2.1.symm.trans h') (by simp)
  · exact absurd (h.2.2.symm.trans h') (by simp)
  · rw [h.1] at h'
    simp at h'
  · exact h'
  · exact absurd (h.1.symm.trans h') (by simp)

/-- Everything an instruction can do to the segment table: nothing, or the one operation of SSTORE, MAP,
UNMAP or LOADP. -/
theorem exec_memory_cases {s t : State} {i : Instr} (h : exec i s = .next t) :
    t.mem = s.mem ∨
    (∃ a b c, i = .sstore a b c ∧ segWrite s (s.reg a) (s.reg b) (s.reg c) = .ok t) ∨
    (∃ b c id u, i = .map b c ∧ segMap s (s.reg c) = .ok (id, u) ∧ t = u.setReg b id) ∨
    (∃ c, i = .unmap c ∧ segUnmap s (s.reg c) = .ok t) ∨
    (∃ b c u, i = .loadp b c ∧ s.reg b ≠ 0 ∧ segReplaceZero s (s.reg b) = .ok u ∧
      t = u.setPc (s.reg c)) := by
  cases i with
  | cmov a b c =>
    simp only [exec, execCmov] at h
    split at h <;> cases h <;> exact .inl rfl
  | sload a b c =>
    simp only [exec, execSload] at h
    cases hx : segRead s (s.reg b) (s.reg c) <;> rw [hx] at h <;> cases h <;> exact .inl rfl
  | sstore a b c =>
    simp only [exec, execSstore] at h
    cases hx : segWrite s (s.reg a) (s.reg b) (s.reg c) <;> rw [hx] at h <;> cases h
    · exact .inl rfl
    · exact .inr (.inl ⟨a, b, c, rfl, hx⟩)
  | add a b c =>
    cases h
    exact .inl rfl
  | mul a b c =>
    cases h
    exact .inl rfl
  | div a b c =>
    simp only [exec, execDiv] at h
    split at h <;> cases h <;> exact .inl rfl
  | nand a b c =>
    cases h
    exact .inl rfl
  | halt =>
    cases h
    exact .inl rfl
  | map b c =>
    simp only [exec, execMap] at h
    cases hx : segMap s (s.reg c) <;> rw [hx] at h <;> cases h
    · exact .inl rfl
    · exact .inr (.inr (.inl ⟨b, c, _, _, rfl, hx, rfl⟩))
  | unmap c =>
    simp only [exec, execUnmap] at h
    cases hx : segUnmap s (s.reg c) <;> rw [hx] at h <;> cases h
    · exact .inl rfl
    · exact .inr (.inr (.inr (.inl ⟨c, rfl, hx⟩)))
  | out c =>
    simp only [exec, execOut] at h
    split at h
    · cases h
      exact .inl rfl
    · rcases hostOut_cases s (byteOfWord (s.reg c)) with ⟨_, e⟩ | ⟨_, _, e⟩ | ⟨_, _, e⟩ <;>
        rw [e] at h <;> cases h <;> exact .inl rfl
  | inp c =>
    simp only [exec, execIn] at h
    rcases hostIn_cases s c with ⟨_, e⟩ | ⟨_, _, _, e⟩ | ⟨_, _, e⟩ | ⟨_, _, e⟩ <;>
      rw [e] at h <;> cases h <;> exact .inl rfl
  | loadp b c =>
    simp only [exec, execLoadp] at h
    split at h
    · cases h
      exact .inl rfl
    · rename_i hb
      cases hx : segReplaceZero s (s.reg b) <;> rw [hx] at h <;> cases h
      · exact .inl rfl
      · exact .inr (.inr (.inr (.inr ⟨b, c, _, rfl, hb, hx, rfl⟩)))
  | lv a imm =>
    cases h
    exact .inl rfl

/-- What an instruction can do to the parameters (nothing), to STATUS (FATAL, or HALT's HALTED) and to the free
list (nothing, but for MAP and UNMAP). -/
theorem exec_control_cases {s t : State} {i : Instr} (h : exec i s = .next t) :
    t.params = s.params ∧ (t.status = s.status ∨ t.status = .fatal ∨ i = .halt) ∧
      (t.freeList = s.freeList ∨ (∃ b c, i = .map b c) ∨ ∃ c, i = .unmap c) := by
  cases i with
  | sload a b c =>
    simp only [exec, execSload] at h
    cases hx : segRead s (s.reg b) (s.reg c) <;> rw [hx] at h <;> cases h <;>
      exact ⟨rfl, by simp [State.toFatal], .inl rfl⟩
  | sstore a b c =>
    simp only [exec, execSstore] at h
    cases hx : segWrite s (s.reg a) (s.reg b) (s.reg c) <;> rw [hx] at h <;> cases h
    · exact ⟨rfl, .inr (.inl rfl), .inl rfl⟩
    · obtain ⟨_, _, _, rfl⟩ := segWrite_ok_iff.1 hx
      exact ⟨rfl, .inl rfl, .inl rfl⟩
  | map b c =>
    simp only [exec, execMap] at h
    rcases hx : segMap s (s.reg c) with _ | ⟨id, u⟩ <;> rw [hx] at h <;> cases h
    · exact ⟨rfl, .inr (.inl rfl), .inl rfl⟩
    · rcases (segMap_ok hx).2 with ⟨_, _, rfl⟩ | ⟨_, _, _, rfl⟩ <;>
        exact ⟨rfl, .inl rfl, .inr (.inl ⟨b, c, rfl⟩)⟩
  | unmap c =>
    simp only [exec, execUnmap] at h
    cases hx : segUnmap s (s.reg c) <;> rw [hx] at h <;> cases h
    · exact ⟨rfl, .inr (.inl rfl), .inl rfl⟩
    · obtain ⟨_, _, rfl⟩ := segUnmap_ok_iff.1 hx
      exact ⟨rfl, .inl rfl, .inr (.inr ⟨c, rfl⟩)⟩
  | loadp b c =>
    simp only [exec, execLoadp] at h
    split at h
    · cases h
      exact ⟨rfl, .inl rfl, .inl rfl⟩
    · cases hx : segReplaceZero s (s.reg b) <;> rw [hx] at h <;> cases h
      · exact ⟨rfl, .inr (.inl rfl), .inl rfl⟩
      · obtain ⟨_, _, _, rfl⟩ := segReplaceZero_ok_iff.1 hx
        exact ⟨rfl, .inl rfl, .inl rfl⟩
  | out c =>
    simp only [exec, execOut] at h
    split at h
    · cases h
      exact ⟨rfl, .inr (.inl rfl), .inl rfl⟩
    · rcases hostOut_cases s (byteOfWord (s.reg c)) with ⟨_, e⟩ | ⟨_, _, e⟩ | ⟨_, _, e⟩ <;>
        rw [e] at h <;> cases h <;> exact ⟨rfl, by simp [State.toFatal], .inl rfl⟩
  | inp c =>
    simp only [exec, execIn] at h
    rcases hostIn_cases s c with ⟨_, e⟩ | ⟨_, _, _, e⟩ | ⟨_, _, e⟩ | ⟨_, _, e⟩ <;>
      rw [e] at h <;> cases h <;> exact ⟨rfl, by simp [State.toFatal], .inl rfl⟩
  | cmov a b c =>
    simp only [exec, execCmov] at h
    split at h <;> cases h <;> exact ⟨rfl, .inl rfl, .inl rfl⟩
  | div a b c =>
    simp only [exec, execDiv] at h
    split at h <;> cases h <;> exact ⟨rfl, by simp [State.toFatal], .inl rfl⟩
  | halt =>
    cases h
    exact ⟨rfl, .inr (.inr rfl), .inl rfl⟩
  | add | mul | nand | lv =>
    cases h
    exact ⟨rfl, .inl rfl, .inl rfl⟩

/-! ### The invariant -/

/-- While RUNNING, id 0 is not free (10_state.md R29). -/
theorem State.Inv.zero_not_free {s : State} (h : s.Inv) (hr : s.status = .running) :
    (0 : Word) ∉ s.freeList := fun h0 =>
  h.zeroMapped hr ((h.agreement 0 (h.freeBelow _ h0)).2 h0)

/-- CAUSE is NONE while RUNNING (10_state.md R34). -/
theorem State.Inv.cause_running {s : State} (h : s.Inv) (hr : s.status = .running) : s.cause = .none := by
  by_contra hc
  have := h.causeIffFatal.1 hc
  rw [hr] at this
  cases this

/-- A change of registers, pc, draws and host, or a new STATUS with the right CAUSE, keeps the invariant of a
RUNNING block. -/
theorem State.Inv.of_same_memory {s t : State} (h : s.Inv) (hr : s.status = .running)
    (hm : t.mem = s.mem) (hf : t.freeList = s.freeList) (hp : t.params = s.params)
    (hi : t.status ≠ .idle) (hc : t.cause ≠ .none ↔ t.status = .fatal) : t.Inv := by
  refine ⟨hm ▸ h.memWf, ?_, hf ▸ h.freeNodup, ?_, ?_, hc, fun hs => absurd hs hi, hp ▸ h.hintBound⟩
  · rw [hm, hf]
    exact h.freeBelow
  · rw [hm, hf]
    exact h.agreement
  · rw [hm]
    exact fun _ => h.zeroMapped hr

end Sys2Proof.Machine
end

