-- ==== Sys2Proof/Laws/PerInstr.lean ====
section
/-! SUPPORT. One lemma per constructor of `Instr`: the decoder reads back what the encoder writes. -/
namespace Sys2Proof.Laws

/-- The word of a well-formed instruction decodes to that instruction (30_encoding.md R92, R95). -/
def RoundTrip.Statement (i : Instr) : Prop := i.wellFormed = true → decode (encode i) = .ok i

namespace RoundTrip

theorem cmov (a b c : Reg) : Statement (.cmov a b c) := fun _ => by
  simp only [encode, decode, stdWord_opcode, fieldA_stdWord, fieldB_stdWord, fieldC_stdWord]; rfl

theorem sload (a b c : Reg) : Statement (.sload a b c) := fun _ => by
  simp only [encode, decode, stdWord_opcode, fieldA_stdWord, fieldB_stdWord, fieldC_stdWord]; rfl

theorem sstore (a b c : Reg) : Statement (.sstore a b c) := fun _ => by
  simp only [encode, decode, stdWord_opcode, fieldA_stdWord, fieldB_stdWord, fieldC_stdWord]; rfl

theorem add (a b c : Reg) : Statement (.add a b c) := fun _ => by
  simp only [encode, decode, stdWord_opcode, fieldA_stdWord, fieldB_stdWord, fieldC_stdWord]; rfl

theorem mul (a b c : Reg) : Statement (.mul a b c) := fun _ => by
  simp only [encode, decode, stdWord_opcode, fieldA_stdWord, fieldB_stdWord, fieldC_stdWord]; rfl

theorem div (a b c : Reg) : Statement (.div a b c) := fun _ => by
  simp only [encode, decode, stdWord_opcode, fieldA_stdWord, fieldB_stdWord, fieldC_stdWord]; rfl

theorem nand (a b c : Reg) : Statement (.nand a b c) := fun _ => by
  simp only [encode, decode, stdWord_opcode, fieldA_stdWord, fieldB_stdWord, fieldC_stdWord]; rfl

theorem halt : Statement .halt := fun _ => by
  simp only [encode, decode, stdWord_opcode]; rfl

theorem map (b c : Reg) : Statement (.map b c) := fun _ => by
  simp only [encode, decode, stdWord_opcode, fieldB_stdWord, fieldC_stdWord]; rfl

theorem unmap (c : Reg) : Statement (.unmap c) := fun _ => by
  simp only [encode, decode, stdWord_opcode, fieldC_stdWord]; rfl

theorem out (c : Reg) : Statement (.out c) := fun _ => by
  simp only [encode, decode, stdWord_opcode, fieldC_stdWord]; rfl

theorem inp (c : Reg) : Statement (.inp c) := fun _ => by
  simp only [encode, decode, stdWord_opcode, fieldC_stdWord]; rfl

theorem loadp (b c : Reg) : Statement (.loadp b c) := fun _ => by
  simp only [encode, decode, stdWord_opcode, fieldB_stdWord, fieldC_stdWord]; rfl

theorem lv (a : Reg) (imm : Word) : Statement (.lv a imm) := fun h => by
  simp only [Instr.wellFormed, decide_eq_true_eq] at h
  simp only [encode, decode, lvWord_opcode, fieldLvA_lvWord, fieldImm_lvWord _ h]; rfl

end RoundTrip

end Sys2Proof.Laws
end

