-- ==== Sys2Proof/Tests/Slice0.lean ====
section
/-! SUPPORT. Our own tests. An expected value comes from the vector of 95_test_vectors.md its comment names,
or is worked out by hand from the rule named. The theorems `witness_…` show a state and operands that meet
the hypotheses of the statement they are named after, one conjunct per clause of it, at a boundary value. -/
namespace Sys2Proof.Tests
open Sys2Proof Sys2Proof.Machine

/-! ### WellFormed: 25 immediate bits, and no more (30_encoding.md R83) -/

theorem test_wellFormed_refuses_wide_immediate : (Instr.lv .r0 0x2000000).wellFormed = false := by decide
theorem test_wellFormed_accepts_largest_immediate : (Instr.lv .r0 0x1FFFFFF).wellFormed = true := by decide

/-! ### Decode: op[31:28], ignored[27:9], A[8:6], B[5:3], C[2:0]; LV op[31:28], A[27:25], imm[24:0] (R82, R83) -/

theorem test_decode_cmov : decode 0b0000_0000000000000000000_001_010_011 = .ok (.cmov .r1 .r2 .r3) := by decide
theorem test_decode_sload : decode 0b0001_0000000000000000000_101_001_011 = .ok (.sload .r5 .r1 .r3) := by decide
theorem test_decode_sstore : decode 0b0010_0000000000000000000_001_011_100 = .ok (.sstore .r1 .r3 .r4) := by decide
theorem test_decode_add : decode 0b0011_0000000000000000000_011_001_010 = .ok (.add .r3 .r1 .r2) := by decide
theorem test_decode_mul : decode 0b0100_0000000000000000000_110_111_000 = .ok (.mul .r6 .r7 .r0) := by decide
theorem test_decode_div : decode 0b0101_0000000000000000000_111_000_101 = .ok (.div .r7 .r0 .r5) := by decide
theorem test_decode_nand : decode 0b0110_0000000000000000000_000_100_110 = .ok (.nand .r0 .r4 .r6) := by decide
theorem test_decode_halt : decode 0b0111_1111111111111111111_111_111_111 = .ok .halt := by decide
theorem test_decode_map : decode 0b1000_0000000000000000111_111_101_011 = .ok (.map .r5 .r3) := by decide
theorem test_decode_unmap : decode 0b1001_0000000000000000000_111_111_010 = .ok (.unmap .r2) := by decide
theorem test_decode_out : decode 0b1010_1000000000000000000_000_111_110 = .ok (.out .r6) := by decide
theorem test_decode_in : decode 0b1011_0000000000000000001_000_000_100 = .ok (.inp .r4) := by decide
theorem test_decode_loadp : decode 0b1100_0000000000000000000_111_001_010 = .ok (.loadp .r1 .r2) := by decide
theorem test_decode_lv : decode 0b1101_110_1000000000000000000000001 = .ok (.lv .r6 0x1000001) := by decide
theorem test_decode_refuses_14 : decode 0b1110_0000000000000000000_000_000_000 = .error .illegalOpcode := by decide
theorem test_decode_refuses_15 : decode 0b1111_1111111111111111111_111_111_111 = .error .illegalOpcode := by decide
theorem test_encode_std : encode (.sload .r5 .r1 .r3) = 0b0001_0000000000000000000_101_001_011 := by decide
theorem test_encode_lv : encode (.lv .r6 0x1000001) = 0b1101_110_1000000000000000000000001 := by decide

/-! ### Small states -/

/-- A view of the next state, if there is one. -/
def after {α : Type} (r : Result) (f : State → α) : Option α :=
  match r with
  | .next t => some (f t)
  | .fault _ => none
  | .refused _ => none

/-- A RUNNING block: the program in segment 0, the words 0, 0x2A, 0, 0 in segment 1, and the free ids. -/
def demo (prog : List Word) (f : RegFile) (free : List Word := [2]) (p : Params := Params.reference) : State :=
  { State.resetWith p with
    regs := f, freeList := free, status := .running,
    mem := { tableLen := 2 + free.length, slots := [(0, Segment.ofWords prog), (1, ⟨4, [(1, 0x2A)]⟩)] } }

/-- Registers 1, 2, 3 hold the given words, register 4 holds 0x2A, the others 0. -/
def regs (x1 x2 x3 : Word) : RegFile := { RegFile.zero with x1 := x1, x2 := x2, x3 := x3, x4 := 0x2A }

/-- A host with answers ready. -/
def port (ins : List InAnswer) (outs : List OutAnswer) : HostPort :=
  { HostPort.quiet with inAnswers := ins, outAnswers := outs }

/-- An IDLE block with an image offered. -/
def offered (bytes : List Byte) (p : Params := Params.reference) : State :=
  { State.resetWith p with host := { HostPort.quiet with image := some bytes } }

/-- One step of the demo block on one word. -/
def run1 (w : Word) (f : RegFile) (h : HostPort := HostPort.quiet) : Result := step { demo [w] f with host := h }

/-! ### One step each, from 95_test_vectors.md section 2 -/

-- CM5, CM2
theorem test_cmov_reads_condition_first : after (run1 0x00000051 (regs 2 9 0)) (fun t => (t.reg .r1, t.pc)) = some (9, 1) := by decide
theorem test_cmov_zero_keeps : after (run1 0x00000053 (regs 5 7 0)) (fun t => t.reg .r1) = some 5 := by decide
-- LS1, LS6
theorem test_sload_word : after (run1 0x1000014B (regs 1 0 1)) (fun t => t.reg .r5) = some 0x2A := by decide
theorem test_sload_unmapped_first :
    after (run1 0x1000014B (regs 7 0 0xFFFFFFFF)) (fun t => (t.status, t.cause, t.pc)) = some (.fatal, .unmappedSegment, 1) := by decide
-- LS7, LS8
theorem test_sstore_word : after (run1 0x2000005C (regs 1 0 0)) (fun t => t.mem.word? 1 0) = some (some 0x2A) := by decide
theorem test_sstore_bounds : after (run1 0x2000005C (regs 1 0 4)) (fun t => (t.cause, t.mem)) =
    some (.offsetOutOfBounds, (demo [0x2000005C] (regs 1 0 4)).mem) := by decide
-- A1, M4, V2, V6, N1, N4
theorem test_add_wraps : after (run1 0x300000CA (regs 0xFFFFFFFF 2 0)) (fun t => t.reg .r3) = some 1 := by decide
theorem test_mul_wraps : after (run1 0x400000CA (regs 0xFFFFFFFF 2 0)) (fun t => t.reg .r3) = some 0xFFFFFFFE := by decide
theorem test_div_unsigned : after (run1 0x500000CA (regs 0xFFFFFFFF 2 0)) (fun t => t.reg .r3) = some 0x7FFFFFFF := by decide
theorem test_div_by_zero : after (run1 0x500000CA (regs 7 0 5)) (fun t => (t.cause, t.reg .r3, t.pc)) = some (.divideByZero, 5, 1) := by decide
theorem test_nand : after (run1 0x600000CA (regs 0xF0F0F0F0 0xFF00FF00 0)) (fun t => t.reg .r3) = some 0x0FFF0FFF := by decide
-- H2
theorem test_halt : after (run1 0x7ABCDEF1 (regs 0 0 0)) (fun t => (t.status, t.pc)) = some (.halted, 1) := by decide
-- D6 with the free id 2: MAP r5, r5 has length x[5] = 0; MU5's oldest id
theorem test_map_reuses_oldest : after (step (demo [0x8000000A] (regs 0 3 0) [3, 2])) (fun t => (t.reg .r1, t.freeList, t.mem.len? 3)) =
    some (3, [2], some 3) := by decide
-- MU1, with segment 1 in use: the fresh id is TL = 2
theorem test_map_fresh : after (step (demo [0x8000000A] (regs 0 4 0) [])) (fun t => (t.reg .r1, t.mem.tableLen, t.mem.word? 2 3)) =
    some (2, 3, some 0) := by decide
-- MU4, MU7
theorem test_unmap_appends : after (run1 0x90000001 (regs 1 0 0)) (fun t => (t.freeList, t.mem.len? 1)) = some ([2, 1], none) := by decide
theorem test_unmap_zero : after (run1 0x90000001 (regs 0 0 0)) (fun t => t.cause) = some .badUnmap := by decide
-- IO3, IO4
theorem test_out_byte : after (run1 0xA0000001 (regs 255 0 0) (port [] [.accept])) (fun t => (t.host.output, t.host.outAnswers)) =
    some ([0xFF], []) := by decide
theorem test_out_range : after (run1 0xA0000001 (regs 256 0 0) (port [] [.accept])) (fun t => (t.cause, t.host)) =
    some (.outputRange, port [] [.accept]) := by decide
-- IO9, IO10
theorem test_in_byte : after (run1 0xB0000004 (regs 0 0 0) (port [.byte 0xFF, .eof] [])) (fun t => (t.reg .r4, t.host.inAnswers)) =
    some (0xFF, [.eof]) := by decide
theorem test_in_eof : after (run1 0xB0000004 (regs 0 0 0) (port [.eof] [])) (fun t => t.reg .r4) = some 0xFFFFFFFF := by decide
-- LP1, LP8 (with segment 1 of 4 words)
theorem test_loadp_jump : after (run1 0xC0000003 (regs 0 0 4)) (fun t => (t.pc, t.mem.len? 0)) = some (4, some 1) := by decide
theorem test_loadp_copy : after (run1 0xC0000009 (regs 1 0 0)) (fun t => (t.pc, t.mem.len? 0, t.mem.word? 0 1, t.mem.word? 1 1)) =
    some (1, some 4, some 0x2A, some 0x2A) := by decide
-- LV2, LV5
theorem test_lv_largest : after (run1 0xDFFFFFFF (regs 0 0 0)) (fun t => t.reg .r7) = some 0x01FFFFFF := by decide
theorem test_lv_low_bits : after (run1 0xD00001C7 (regs 0 0 0)) (fun t => t.reg .r0) = some 0x1C7 := by decide
-- D4
theorem test_illegal_opcode : after (run1 0xF1234567 (regs 0 0 0)) (fun t => (t.cause, t.pc)) = some (.illegalOpcode, 1) := by decide

/-! ### Boot, from 95_test_vectors.md section 2.10 and 70_reset_and_hazards.md R262 -/

theorem test_reset_memory_wf : State.reset.mem.wf = true := by decide
-- IM4: big-endian
theorem test_image_is_big_endian : after (step (offered [0, 0, 0, 0x70])) (fun t => (t.status, t.mem.word? 0 0, t.mem.tableLen)) =
    some (.running, some 0x70, 1) := by decide
-- IM2
theorem test_image_of_three_bytes : after (step (offered [0x70, 0, 0])) (fun t => (t.status, t.cause)) = some (.fatal, .invalidImage) := by decide
-- R262, the hint 10: TL = 10, FL = [1, ..., 9]
theorem test_image_with_hint : after (step (offered [] { Params.reference with freeListHint := 10 })) (fun t => (t.mem.tableLen, t.freeList)) =
    some (10, [1, 2, 3, 4, 5, 6, 7, 8, 9]) := by decide
-- R260: an IDLE block waits; withFetchWord runs its word as the first instruction
theorem test_idle_waits : step State.reset = .next State.reset := rfl
theorem test_fetch_word_runs : after (step (State.reset.withFetchWord 32 0xD0000041)) (fun t => (t.reg .r0, t.pc)) = some (0x41, 1) := by decide
theorem test_decode_table_word : decodeTableWord 32 0xB0000004 = some (.inp .r4) := by decide

/-! ### The invariant holds of the small states -/

theorem demo_inv {prog : List Word} {f : RegFile} {free : List Word} {p : Params} {h : HostPort} {pc : Word}
    (hw : (demo prog f free p).mem.wf = true) (hf : free = [] ∨ free = [2] ∨ free = [3, 2])
    (hp : p.freeListHint ≤ 2 ^ 32) : State.Inv { demo prog f free p with host := h, pc := pc } where
  memWf := hw
  freeBelow := by rcases hf with rfl | rfl | rfl <;> simp [demo]
  freeNodup := by rcases hf with rfl | rfl | rfl <;> simp [demo]
  agreement := by
    intro id hid
    have h4 : id = 0 ∨ id = 1 ∨ id = 2 ∨ id = 3 := by
      have : id.toNat < 4 := by rcases hf with rfl | rfl | rfl <;> (simp [demo] at hid; omega)
      bv_omega
    rcases hf with rfl | rfl | rfl <;> rcases h4 with rfl | rfl | rfl | rfl <;>
      simp [demo, Memory.slot?, cellGet?] at hid ⊢
  zeroMapped := by simp [demo, Memory.slot?, cellGet?]
  causeIffFatal := by simp [demo, State.resetWith]
  idleClear := by simp [demo]
  hintBound := hp

theorem offered_inv {bytes : List Byte} {p : Params} (hp : p.freeListHint ≤ 2 ^ 32) :
    (offered bytes p).Inv where
  memWf := rfl
  freeBelow := by simp [offered, State.resetWith]
  freeNodup := by simp [offered, State.resetWith]
  agreement := by simp [offered, State.resetWith, Memory.empty]
  zeroMapped := by simp [offered, State.resetWith]
  causeIffFatal := by simp [offered, State.resetWith]
  idleClear := fun _ => ⟨rfl, rfl, rfl, rfl⟩
  hintBound := hp

/-- The demo block fetches the first word of its program. -/
theorem demo_fetches {w : Word} {ws : List Word} {f : RegFile} {free : List Word} {p : Params}
    (h : (demo (w :: ws) f free p).mem.word? 0 0 = some w) : (demo (w :: ws) f free p).fetches w :=
  ⟨⟨rfl, rfl, rfl⟩, h⟩

/-- WORD_CAPACITY = n, the other parameters at their reference values. -/
def capacity (n : Nat) : Params := { Params.reference with wordCapacity := some n }

/-! ### Witnesses: encoding -/

theorem witness_DecodeOfEncodeIsIdentity :
    (Instr.lv .r7 0x1FFFFFF).wellFormed = true ∧ (Instr.loadp .r7 .r0).wellFormed = true := by decide

theorem witness_EncodeOfDecodeClearsIgnoredBits : decode 0x0FFFFE53 = .ok (.cmov .r1 .r2 .r3) := by decide

theorem witness_IgnoredBitsDoNotMatter :
    (decode 0x00000053 = .ok (.cmov .r1 .r2 .r3) ∧
      0x0FFFFE53 &&& usedBits (.cmov .r1 .r2 .r3) = 0x00000053 &&& usedBits (.cmov .r1 .r2 .r3)) ∧
    ((0x0FFFFFFF : Word).extractLsb' 28 4).toNat ≤ 13 ∧ ((0xDFFFFFFF : Word).extractLsb' 28 4).toNat ≤ 13 := by decide

theorem witness_EncodingsAsNumbers : (0 : Word).toNat < 2 ^ 25 ∧ (0x1FFFFFF : Word).toNat < 2 ^ 25 := by decide

/-- Every opcode is the opcode of a word, as `DecodesStandard` and the statement of LV ask. -/
theorem witness_DecodesStandard : ∀ op, op < 14 →
    ((BitVec.ofNat 32 (op * 2 ^ 28 + 0xFFFFFFF)).extractLsb' 28 4).toNat = op := by decide

/-! ### Witnesses: the instructions -/

/-- The last word of segment 1; an unmapped slot; an id at TL; the offset at the length. -/
theorem witness_SloadReadsWordOrIsFatal :
    (demo [] (regs 1 3 0)).mem.word? 1 3 = some 0 ∧ (demo [] (regs 2 0 0)).mem.len? 2 = none ∧
      (demo [] (regs 3 0 0)).mem.len? 3 = none ∧
      ((demo [] (regs 1 4 0)).mem.len? 1 = some 4 ∧ 4 ≤ ((demo [] (regs 1 4 0)).reg .r2).toNat) := by decide

theorem witness_SstoreWritesOneWordOrIsFatal :
    ((demo [] (regs 1 3 0)).mem.wf = true ∧ (demo [] (regs 1 3 0)).mem.len? 1 = some 4 ∧
      ((demo [] (regs 1 3 0)).reg .r2).toNat < 4) ∧
    (demo [] (regs 2 0 0)).mem.len? 2 = none ∧ (demo [] (regs 3 0 0)).mem.len? 3 = none ∧
    ((demo [] (regs 1 4 0)).mem.len? 1 = some 4 ∧ 4 ≤ ((demo [] (regs 1 4 0)).reg .r2).toNat) := by decide

/-- The store's clause about a later load: the operand registers still hold what they held. -/
theorem witness_SstoreWritesOneWordOrIsFatal_load : ∃ t, exec (.sstore .r1 .r2 .r4) (demo [] (regs 1 3 0)) = .next t ∧
    t.reg .r1 = 1 ∧ t.reg .r2 = 3 := ⟨_, rfl, rfl, rfl⟩

theorem witness_CmovMovesUnlessConditionZero :
    (demo [] (regs 5 7 1)).reg .r3 ≠ 0 ∧ (demo [] (regs 5 7 0)).reg .r3 = 0 := by decide

theorem witness_DivIsFloorQuotientOrFatal :
    (demo [] (regs 7 1 0)).reg .r2 ≠ 0 ∧ (demo [] (regs 7 0 0)).reg .r2 = 0 := by decide

theorem witness_HaltStopsWithSuccess :
    (0x70000000 ≤ (0x70000000 : Word).toNat ∧ (0x7FFFFFFF : Word).toNat ≤ 0x7FFFFFFF) ∧
    ∃ t, exec .halt (demo [] (regs 0 0 0)) = .next t ∧ t.host.resetLine = false ∧ t.host.image = none :=
  ⟨by decide, _, rfl, rfl, rfl⟩

/-- A cycle that ends with success by a HALT, and one at the end of segment 0. -/
theorem witness_HaltStopsWithSuccess_ends :
    (∃ s t : State, s.cycling ∧ step s = .next t ∧ t.status = .halted) ∧
      ∃ s t : State, s.cycling ∧ step s = .next t ∧ t.status = .ended :=
  ⟨⟨demo [0x70000000] (regs 0 0 0), _, ⟨rfl, rfl, rfl⟩, rfl, rfl⟩,
    ⟨demo [] (regs 0 0 0), _, ⟨rfl, rfl, rfl⟩, rfl, rfl⟩⟩

/-- A request that fits exactly, with an empty and with a non-empty free list. -/
theorem witness_MapAllocatesZeroedSegmentOrIsFatal (free : List Word) (h : free = [] ∨ free = [2]) :
    (demo [0] (regs 0 3 0) free (capacity 8)).Inv ∧
      (demo [0] (regs 0 3 0) free (capacity 8)).status = .running ∧
      fits (capacity 8) ((demo [0] (regs 0 3 0) free (capacity 8)).mem.storageUsed + 3) = true ∧
      (demo [0] (regs 0 3 0) free (capacity 8)).mem.tableLen < 2 ^ 32 := by
  rcases h with rfl | rfl <;>
    exact ⟨demo_inv (by decide) (by decide) (by decide), by decide, by decide, by decide⟩

/-- A request one word too large; and no id left. -/
theorem witness_MapAllocatesZeroedSegmentOrIsFatal_exhausted :
    fits (capacity 7) ((demo [0] (regs 0 3 0) [2] (capacity 7)).mem.storageUsed + 3) = false ∧
      ∃ s : State, s.freeList = [] ∧ s.mem.tableLen = 2 ^ 32 :=
  ⟨by decide, { State.reset with mem := { tableLen := 2 ^ 32, slots := [] } }, rfl, rfl⟩

theorem witness_MapReusesOldestUnderReferencePick :
    (demo [0] (regs 0 3 0) [3, 2]).params.freePick = .oldest ∧
      (demo [0] (regs 0 3 0) [3, 2]).freeList = 3 :: [2] ∧
      fits (demo [0] (regs 0 3 0) [3, 2]).params ((demo [0] (regs 0 3 0) [3, 2]).mem.storageUsed + 3) = true := by decide

theorem witness_UnmapReleasesSegmentOrIsFatal :
    ((demo [] (regs 1 0 0)).mem.wf = true ∧ (demo [] (regs 1 0 0)).reg .r1 ≠ 0 ∧
      (demo [] (regs 1 0 0)).mem.len? 1 ≠ none) ∧
    (demo [] (regs 0 0 0)).reg .r1 = 0 ∧ (demo [] (regs 2 0 0)).mem.len? 2 = none ∧
    (demo [] (regs 3 0 0)).mem.len? 3 = none := by decide

/-- None, one and two free ids: the id comes back next, next, and not next. -/
theorem witness_MapThenUnmapRestoresAvailableIds (free : List Word)
    (h : free = [] ∨ free = [2] ∨ free = [3, 2]) :
    (demo [0] (regs 0 3 0) free).Inv ∧ (demo [0] (regs 0 3 0) free).status = .running ∧
      fits Params.reference ((demo [0] (regs 0 3 0) free).mem.storageUsed + 3) = true ∧
      (demo [0] (regs 0 3 0) free).mem.tableLen < 2 ^ 32 ∧
      (demo [0] (regs 0 3 0) free).params.freePick = .oldest ∧
      ∃ t u, exec (.map .r1 .r2) (demo [0] (regs 0 3 0) free) = .next t ∧ exec (.unmap .r1) t = .next u ∧
        fits u.params (u.mem.storageUsed + (u.reg .r2).toNat) = true := by
  rcases h with rfl | rfl | rfl <;>
    exact ⟨demo_inv (by decide) (by decide) (by decide), rfl, by decide, by decide, rfl, _, _, rfl, rfl, rfl⟩

/-- 255 and 256; accepted, refused and held. -/
theorem witness_OutEmitsByteOrIsFatal :
    255 < ((demo [] (regs 256 0 0)).reg .r1).toNat ∧ ((demo [] (regs 255 0 0)).reg .r1).toNat ≤ 255 ∧
      (port [] [.accept]).outAnswers = .accept :: [] ∧ (port [] [.fail]).outAnswers = .fail :: [] := by decide

theorem witness_OutEmitsByteOrIsFatal_held :
    ((demo [0xA0000001] (regs 255 0 0)).reg .r1).toNat ≤ 255 ∧
      (demo [0xA0000001] (regs 255 0 0)).host.outAnswers = [] ∧
      (demo [0xA0000001] (regs 255 0 0)).fetches 0xA0000001 ∧ decode 0xA0000001 = .ok (.out .r1) :=
  ⟨by decide, rfl, demo_fetches (by decide), by decide⟩

theorem witness_InReadsByteOrEofOrIsFatal :
    (port [.byte 0xFF] []).inAnswers = .byte 0xFF :: [] ∧ (port [.eof] []).inAnswers = .eof :: [] ∧
      (port [.fail] []).inAnswers = .fail :: [] := by decide

theorem witness_InReadsByteOrEofOrIsFatal_held :
    (demo [0xB0000001] (regs 0 0 0)).host.inAnswers = [] ∧
      (demo [0xB0000001] (regs 0 0 0)).fetches 0xB0000001 ∧ decode 0xB0000001 = .ok (.inp .r1) :=
  ⟨rfl, demo_fetches (by decide), by decide⟩

/-- x[B] = 0; a copy that fits exactly; an unmapped source; a copy one word too large. -/
theorem witness_LoadpReplacesProgramOrIsFatal :
    (demo [0] (regs 0 0 0)).reg .r1 = 0 ∧
    ((demo [0] (regs 1 0 0)).reg .r1 ≠ 0 ∧ (demo [0] (regs 1 0 0)).mem.len? 1 = some 4 ∧
      fits (capacity 8) ((demo [0] (regs 1 0 0)).mem.storageUsed - ((demo [0] (regs 1 0 0)).mem.len? 0).getD 0 + 4) = true) ∧
    ((demo [0] (regs 2 0 0)).reg .r1 ≠ 0 ∧ (demo [0] (regs 2 0 0)).mem.len? 2 = none) ∧
    fits (capacity 7) ((demo [0] (regs 1 0 0)).mem.storageUsed - ((demo [0] (regs 1 0 0)).mem.len? 0).getD 0 + 4) = false := by
  decide

theorem witness_LoadpFromZeroIsPureJump : (demo [] (regs 0 9 0)).reg .r1 = 0 := by decide

/-- A store at the last offset, to the source (x = r1) and to the copy (x = r0). -/
theorem witness_LoadpCopyDoesNotAlias :
    (demo [0] (regs 1 3 0)).Inv ∧ (demo [0] (regs 1 3 0)).reg .r1 ≠ 0 ∧
      (demo [0] (regs 1 3 0)).mem.len? 1 = some 4 ∧
      fits Params.reference ((demo [0] (regs 1 3 0)).mem.storageUsed - ((demo [0] (regs 1 3 0)).mem.len? 0).getD 0 + 4) = true ∧
      ((demo [0] (regs 1 3 0)).reg .r2).toNat < 4 ∧ (demo [0] (regs 1 3 0)).reg .r0 = 0 :=
  ⟨demo_inv (by decide) (by decide) (by decide), by decide, by decide, by decide, by decide, by decide⟩

/-- z = r0; o = r3, which holds 1; x = r5. -/
theorem witness_IdiomsComputeTheirResults :
    (demo [] (regs 5 7 1)).reg .r0 = 0 ∧ (demo [] (regs 5 7 1)).reg .r3 = 1 ∧
      Reg.r5 ≠ Reg.r1 ∧ Reg.r5 ≠ Reg.r3 := by decide

/-! ### Witnesses: the cycle and its endings -/

theorem witness_StepRunsDecodedInstruction :
    (demo [0x300000CA] (regs 1 2 0)).fetches 0x300000CA ∧ decode 0x300000CA = .ok (.add .r3 .r1 .r2) :=
  ⟨demo_fetches (by decide), by decide⟩

theorem witness_IllegalOpcodeIsFatal :
    ((demo [0xE0000000] (regs 0 0 0)).fetches 0xE0000000 ∧ 14 ≤ ((0xE0000000 : Word).extractLsb' 28 4).toNat) ∧
    ((demo [0xFFFFFFFF] (regs 0 0 0)).fetches 0xFFFFFFFF ∧ 14 ≤ ((0xFFFFFFFF : Word).extractLsb' 28 4).toNat) ∧
    ((demo [] (regs 1 3 0xE0000000)).mem.wf = true ∧
      14 ≤ (((demo [] (regs 1 3 0xE0000000)).reg .r3).extractLsb' 28 4).toNat ∧
      (demo [] (regs 1 3 0xE0000000)).mem.len? 1 = some 4 ∧
      ((demo [] (regs 1 3 0xE0000000)).reg .r2).toNat < 4) :=
  ⟨⟨demo_fetches (by decide), by decide⟩, ⟨demo_fetches (by decide), by decide⟩, by decide⟩

/-- At the end; beyond it with either LOADP_OOR. -/
theorem witness_EndCheckEndsTheRun :
    (∃ s : State, s.cycling ∧ s.mem.len? 0 = some 1 ∧ s.pc.toNat = 1) ∧
    (∃ s : State, s.cycling ∧ s.mem.len? 0 = some 1 ∧ 1 < s.pc.toNat ∧ s.params.loadpOor = .endNormally) ∧
    ∃ s : State, s.cycling ∧ s.mem.len? 0 = some 1 ∧ 1 < s.pc.toNat ∧ s.params.loadpOor = .fatal :=
  ⟨⟨{ demo [0] (regs 0 0 0) with pc := 1 }, ⟨rfl, rfl, rfl⟩, rfl, rfl⟩,
    ⟨{ demo [0] (regs 0 0 0) with pc := 2 }, ⟨rfl, rfl, rfl⟩, rfl, by decide, rfl⟩,
    ⟨{ demo [0] (regs 0 0 0) [2] { Params.reference with loadpOor := .fatal } with pc := 2 },
      ⟨rfl, rfl, rfl⟩, rfl, by decide, rfl⟩⟩

/-- In every STATUS. -/
theorem witness_OnlyARunningBlockCycles (x : Status) :
    ∃ s : State, s.status = x ∧ s.host.resetLine = false ∧ s.host.image = none :=
  ⟨State.reset.setStatus x, rfl, rfl, rfl⟩

/-- Both sides of the equivalence: a fault, and the state it asks for. -/
theorem witness_StepStopsOnlyInFatal : step (State.reset.toFatal .divideByZero) = .fault (.fatalStop .divideByZero) ∧
    (State.reset.toFatal .divideByZero).status = .fatal := ⟨rfl, rfl⟩

/-- HALTED, ENDED, and FATAL with an image offered. -/
theorem witness_OnlyResetLeavesAStoppedRun :
    (∃ t, step (State.reset.setStatus .halted) = .next t) ∧ (∃ t, step (State.reset.setStatus .ended) = .next t) ∧
      ∃ t, step ((offered [0]).toFatal .badUnmap) = .next t := ⟨⟨_, rfl⟩, ⟨_, rfl⟩, _, rfl⟩

/-- DIV by zero; and the end check's PC_OUT_OF_RANGE. -/
theorem witness_FatalConditionsArePrecise :
    (∃ s t : State, s.Inv ∧ s.cycling ∧ step s = .next t ∧ t.status = .fatal ∧ t.cause = .divideByZero) ∧
    ∃ s t : State, s.Inv ∧ s.cycling ∧ step s = .next t ∧ t.status = .fatal ∧ t.cause = .pcOutOfRange :=
  ⟨⟨demo [0x500000CA] (regs 7 0 0), _, demo_inv (by decide) (by decide) (by decide), ⟨rfl, rfl, rfl⟩, rfl, rfl, rfl⟩,
    ⟨{ demo [0] (regs 0 0 0) [2] { Params.reference with loadpOor := .fatal } with pc := 2 }, _,
      demo_inv (by decide) (by decide) (by decide), ⟨rfl, rfl, rfl⟩, rfl, rfl, rfl⟩⟩

theorem witness_ExitStatusReportsHowTheRunEnded :
    (State.reset.setStatus .halted).succeeded ∧ (State.reset.setStatus .ended).succeeded ∧
      (State.reset.setStatus .fatal).status = .fatal ∧ State.reset.status = .idle ∧
      (State.reset.setStatus .running).status = .running := ⟨.inl rfl, .inr rfl, rfl, rfl, rfl⟩

/-! ### Witnesses: reset and image load -/

theorem witness_ResetClearsTheBlock :
    (∃ s : State, s.status = .running ∧ s.host.resetLine = true) ∧
      State.reset.status = .idle ∧ State.reset.host.resetLine = false ∧ State.reset.host.image = none :=
  ⟨⟨{ demo [0] (regs 1 2 3) with host := { HostPort.quiet with resetLine := true } }, rfl, rfl⟩, rfl, rfl, rfl⟩

/-- An empty image and one of a word that fits exactly; a pre-populated id. -/
theorem witness_ResetAndLoadedValues :
    (([] : List Byte).length % 4 = 0 ∧ ([] : List Byte).length / 4 < 2 ^ 32 ∧ fits (capacity 0) 0 = true) ∧
    (([1, 2, 3, 4] : List Byte).length % 4 = 0 ∧ ([1, 2, 3, 4] : List Byte).length / 4 < 2 ^ 32 ∧ fits (capacity 1) 1 = true) ∧
    8 + 1 < ({ Params.reference with freeListHint := 10 } : Params).freeListHint := by decide

/-- Three bytes; one that does not fit; one that fits exactly; an offer outside IDLE. -/
theorem witness_ImageLoadInstallsProgram :
    ((offered [1, 2, 3]).host.resetLine = false ∧ (offered [1, 2, 3]).host.image = some [1, 2, 3] ∧
      (offered [1, 2, 3]).status = .idle ∧ ([1, 2, 3] : List Byte).length % 4 ≠ 0) ∧
    (fits (capacity 0) (([1, 2, 3, 4] : List Byte).length / 4) = false ∧ (offered [1, 2, 3, 4] (capacity 0)).status = .idle) ∧
    (fits (capacity 1) (([1, 2, 3, 4] : List Byte).length / 4) = true ∧ ([1, 2, 3, 4] : List Byte).length / 4 ≤ 2 ^ 32 - 1) ∧
    (((offered [0]).setStatus .running).host.image = some [0] ∧ ((offered [0]).setStatus .running).status ≠ .idle) := by
  decide

/-- An image of 2^32 words, one too many. -/
theorem witness_ImageLoadInstallsProgram_tooLong : ∃ bytes : List Byte, 2 ^ 32 - 1 < bytes.length / 4 :=
  ⟨List.replicate (2 ^ 34) 0, by rw [List.length_replicate]; norm_num⟩

/-- An empty image and a one-word image, whose word decodes. -/
theorem witness_FirstCycleAfterLoad :
    ((offered []).status = .idle ∧ (offered []).host.resetLine = false ∧ (offered []).host.image = some [] ∧
      fits (offered []).params 0 = true) ∧
    ((offered [0x70, 0, 0, 0]).status = .idle ∧ (offered [0x70, 0, 0, 0]).host.resetLine = false ∧
      (offered [0x70, 0, 0, 0]).host.image = some [0x70, 0, 0, 0] ∧ fits (offered [0x70, 0, 0, 0]).params 1 = true ∧
      decode 0x70000000 = .ok .halt) := by decide

/-- FREE_LIST_HINT = 10, the other parameters at their reference values. -/
def hint10 : Params := { Params.reference with freeListHint := 10 }

/-- A RUNNING block some steps after its image load, before any MAP. -/
def loaded (prog : List Word) (f : RegFile) (p : Params) : State :=
  { State.resetWith p with
    regs := f, status := .running, freeList := hintIds p.freeListHint,
    mem := { tableLen := max 1 p.freeListHint, slots := [(0, Segment.ofWords prog)] } }

theorem loaded_slot {prog : List Word} {f : RegFile} {p : Params} {id : Nat} :
    (loaded prog f p).mem.slot? id = none ↔ id ≠ 0 := by
  simp [loaded, Memory.slot?, cellGet?]
  omega

theorem loaded_asLoaded {prog : List Word} {f : RegFile} {p : Params} : (loaded prog f p).asLoaded := by
  refine ⟨rfl, fun id => ?_, rfl, rfl⟩
  rw [Memory.len?, ne_eq, Option.map_eq_none_iff, loaded_slot]
  simp

theorem loaded_inv {prog : List Word} {f : RegFile} {p : Params} (hw : (loaded prog f p).mem.wf = true)
    (hp : p.freeListHint ≤ 2 ^ 32) : (loaded prog f p).Inv where
  memWf := hw
  freeBelow := fun id h => ((mem_hintIds hp).1 h).2.trans_le (le_max_right _ _)
  freeNodup := hintIds_nodup hp
  agreement := by
    intro id hid
    rw [loaded_slot, show (loaded prog f p).freeList = hintIds p.freeListHint from rfl, mem_hintIds hp]
    have h0 : id ≠ 0 ↔ id.toNat ≠ 0 := not_congr BitVec.toNat_inj.symm
    simp only [loaded] at hid
    rw [h0]
    omega
  zeroMapped := fun _ h => loaded_slot.1 h rfl
  causeIffFatal := by simp [loaded, State.resetWith]
  idleClear := by simp [loaded]
  hintBound := hp

/-- The load, with FREE_LIST_HINT 0 and 10. -/
theorem witness_FirstMapReturnsPositiveId_load (p : Params) (hp : p = Params.reference ∨ p = hint10) :
    ∃ t, (offered [0x80, 0, 0, 0x0A] p).status = .idle ∧ (offered [0x80, 0, 0, 0x0A] p).host.resetLine = false ∧
      (offered [0x80, 0, 0, 0x0A] p).host.image = some [0x80, 0, 0, 0x0A] ∧
      step (offered [0x80, 0, 0, 0x0A] p) = .next t ∧ t.status = .running := by
  rcases hp with rfl | rfl <;> exact ⟨_, rfl, rfl, rfl, rfl, rfl⟩

/-- A step that executes no MAP, an LV. -/
theorem witness_FirstMapReturnsPositiveId_step : ∃ s t : State, s.Inv ∧ s.asLoaded ∧ step s = .next t ∧
    t.status = .running ∧ ∀ w b c, s.fetches w → decode w ≠ .ok (.map b c) := by
  refine ⟨loaded [0xD4000003, 0x8000000A] .zero .reference, _, loaded_inv (by decide) (by decide),
    loaded_asLoaded, rfl, rfl, fun w b c h => ?_⟩
  have hw : (0xD4000003 : Word) = w := Option.some.inj h.2
  subst hw
  intro h
  have : decode 0xD4000003 = .ok (.lv .r2 3) := by decide
  rw [this] at h
  cases h

/-- A MAP of length 3 that fits WORD_CAPACITY exactly, and one with FREE_LIST_HINT 10. -/
theorem witness_FirstMapReturnsPositiveId_map :
    ((loaded [0] (regs 0 3 0) (capacity 4)).Inv ∧ (loaded [0] (regs 0 3 0) (capacity 4)).asLoaded ∧
      fits (capacity 4) ((loaded [0] (regs 0 3 0) (capacity 4)).mem.storageUsed + 3) = true ∧
      (capacity 4).freeListHint = 0) ∧
    (loaded [0] (regs 0 3 0) hint10).Inv ∧ (loaded [0] (regs 0 3 0) hint10).asLoaded ∧
      fits hint10 ((loaded [0] (regs 0 3 0) hint10).mem.storageUsed + 3) = true :=
  ⟨⟨loaded_inv (by decide) (by decide), loaded_asLoaded, by decide, rfl⟩,
    loaded_inv (by decide) (by decide), loaded_asLoaded, by decide⟩

/-! ### Witnesses: the whole machine -/

theorem witness_ResetSatisfiesInvariant :
    ({ Params.reference with freeListHint := 2 ^ 32 } : Params).freeListHint ≤ 2 ^ 32 := by decide

theorem witness_EveryStepKeepsInvariant : ∃ s t : State, s.Inv ∧ step s = .next t :=
  ⟨demo [0x8000000A] (regs 0 3 0), _, demo_inv (by decide) (by decide) (by decide), rfl⟩

/-- A MAP that fills WORD_CAPACITY exactly. -/
theorem witness_EveryStepStaysWithinCapacity : ∃ s t : State, s.Inv ∧ s.withinCapacity ∧ step s = .next t ∧
    t.status = .running :=
  ⟨demo [0x8000000A] (regs 0 3 0) [2] (capacity 8), _, demo_inv (by decide) (by decide) (by decide), rfl, rfl, rfl⟩

/-- The last word of the program, an ADD; and a LOADP beyond the end. -/
theorem witness_PcStaysWithinProgramExceptAfterLoadp :
    (∃ s t : State, s.Inv ∧ s.cycling ∧ step s = .next t ∧ t.status = .running ∧ t.mem.len? 0 = some 1 ∧ t.pc = 1) ∧
    ∃ s t : State, s.Inv ∧ s.cycling ∧ step s = .next t ∧ t.status = .running ∧ t.mem.len? 0 = some 1 ∧ t.pc = 9 :=
  ⟨⟨demo [0x300000CA] (regs 1 2 0), _, demo_inv (by decide) (by decide) (by decide), ⟨rfl, rfl, rfl⟩, rfl, rfl, rfl, rfl⟩,
    ⟨demo [0xC0000003] (regs 0 0 9), _, demo_inv (by decide) (by decide) (by decide), ⟨rfl, rfl, rfl⟩, rfl, rfl, rfl, rfl⟩⟩

theorem witness_FetchIncrementNeverWraps : ∃ (s : State) (w : Word), s.Inv ∧ s.fetches w :=
  ⟨demo [0x300000CA] (regs 1 2 0), _, demo_inv (by decide) (by decide) (by decide), demo_fetches (by decide)⟩

theorem witness_InstructionsWriteOnlyTheirDestination : (∃ t, exec (.map .r1 .r2) (demo [0] (regs 0 3 0)) = .next t) ∧
    ∃ t, exec (.unmap .r1) (demo [0] (regs 1 3 0)) = .next t := ⟨⟨_, rfl⟩, _, rfl⟩

theorem witness_OnlyLoadpRedirectsThePc : (∃ t, exec (.inp .r1) (demo [0] (regs 0 0 0)) = .next t) ∧
    ∀ b c, Instr.inp .r1 ≠ .loadp b c := ⟨⟨_, rfl⟩, nofun⟩

/-- An ADD, an answered IN, an answered OUT. -/
theorem witness_OnlyByteIoTouchesTheHost :
    ((∃ t, exec (.add .r1 .r1 .r2) (demo [0] (regs 0 0 0)) = .next t) ∧ (∀ c, Instr.add .r1 .r1 .r2 ≠ .out c) ∧
      ∀ c, Instr.add .r1 .r1 .r2 ≠ .inp c) ∧
    (∃ t, exec (.inp .r1) { demo [0] (regs 0 0 0) with host := port [.eof] [] } = .next t) ∧
    ∃ t, exec (.out .r1) { demo [0] (regs 0 0 0) with host := port [] [.accept] } = .next t :=
  ⟨⟨⟨_, rfl⟩, nofun, nofun⟩, ⟨_, rfl⟩, _, rfl⟩

/-- Segment 1 stays mapped across an ADD; LOADP changes the length of segment 0. -/
theorem witness_SegmentsAreNeverResized :
    (∃ s t : State, s.Inv ∧ s.cycling ∧ step s = .next t ∧ s.mem.len? 1 = some 4 ∧ t.mem.len? 1 = some 4) ∧
    ∃ s t : State, s.Inv ∧ s.cycling ∧ step s = .next t ∧ t.mem.len? 0 ≠ s.mem.len? 0 :=
  ⟨⟨demo [0x300000CA] (regs 1 2 0), _, demo_inv (by decide) (by decide) (by decide), ⟨rfl, rfl, rfl⟩, rfl, rfl, rfl⟩,
    ⟨demo [0xC0000009] (regs 1 0 0), _, demo_inv (by decide) (by decide) (by decide), ⟨rfl, rfl, rfl⟩, rfl, by decide⟩⟩

/-- An SSTORE of 0x2A at offset 3 of segment 1; and a LOADP that changes word 0 of segment 0 to 0. -/
theorem witness_OnlySstoreOrLoadpChangesAWord :
    (∃ s t : State, s.Inv ∧ exec (.sstore .r1 .r2 .r4) s = .next t ∧ s.mem.word? 1 3 = some 0 ∧
      t.mem.word? 1 3 = some 0x2A) ∧
    ∃ s t : State, s.Inv ∧ exec (.loadp .r1 .r0) s = .next t ∧ s.mem.word? 0 0 = some 7 ∧ t.mem.word? 0 0 = some 0 :=
  ⟨⟨demo [0] (regs 1 3 0), _, demo_inv (by decide) (by decide) (by decide), rfl, rfl, rfl⟩,
    ⟨demo [7] (regs 1 3 0), _, demo_inv (by decide) (by decide) (by decide), rfl, rfl, rfl⟩⟩

/-- SSTORE r0, r2, r3 stores HALT (x[3]) at offset 1 of a program of two words. -/
theorem witness_StoreToNextWordIsExecutedNext : ∃ s : State, s.Inv ∧ s.fetches 0x20000013 ∧
    decode 0x20000013 = .ok (.sstore .r0 .r2 .r3) ∧ s.reg .r0 = 0 ∧ s.reg .r2 = s.pc + 1 ∧
    s.mem.len? 0 = some 2 ∧ s.pc.toNat + 1 < 2 ∧ decode (s.reg .r3) = .ok .halt :=
  ⟨demo [0x20000013, 0] (regs 0 1 0x70000000), demo_inv (by decide) (by decide) (by decide),
    demo_fetches (by decide), by decide, rfl, rfl, rfl, by decide, by decide⟩

/-- LOADP r1, r2 with x[1] = 1 and x[2] = 3, the last offset of segment 1. -/
theorem witness_FetchAfterLoadpReadsNewProgram : ∃ s : State, s.Inv ∧ s.fetches 0xC000000A ∧
    decode 0xC000000A = .ok (.loadp .r1 .r2) ∧ s.reg .r1 ≠ 0 ∧ s.mem.len? (s.reg .r1).toNat = some 4 ∧
    fits s.params (s.mem.storageUsed - (s.mem.len? 0).getD 0 + 4) = true ∧
    s.mem.word? (s.reg .r1).toNat (s.reg .r2).toNat = some 0 :=
  ⟨demo [0xC000000A] (regs 1 3 0), demo_inv (by decide) (by decide) (by decide),
    demo_fetches (by decide), by decide, by decide, rfl, rfl, rfl⟩

/-- A held OUT of 255; an OUT of 256, which awaits no answer; and a LOADP. -/
theorem witness_EveryCycleCompletesUnlessItAwaitsTheHost :
    ((demo [0xA0000001] (regs 255 0 0)).cycling ∧ (demo [0xA0000001] (regs 255 0 0)).awaitsHost) ∧
    ((demo [0xA0000001] (regs 256 0 0)).cycling ∧ ¬ (demo [0xA0000001] (regs 256 0 0)).awaitsHost) ∧
    (demo [0xC0000003] (regs 0 0 9)).cycling ∧ ¬ (demo [0xC0000003] (regs 0 0 9)).awaitsHost := by
  refine ⟨⟨⟨rfl, rfl, rfl⟩, 0xA0000001, .r1, demo_fetches (by decide), .inr (by decide)⟩,
    ⟨⟨rfl, rfl, rfl⟩, ?_⟩, ⟨rfl, rfl, rfl⟩, ?_⟩ <;>
  · rintro ⟨w, c, ⟨_, hw⟩, h⟩
    cases Option.some.inj hw
    revert h
    cases c <;> decide

end Sys2Proof.Tests
end

/-! What an instruction leaves the state as, the operations on the allocator, and from these the statements
of 10_state.md: its registers, its pc, the lengths of its segments and its invariant. -/
namespace Sys2Proof.Machine

/-! ### What an instruction can do -/

/-- The instruction is an IN or an OUT for which the host has no answer ready (20_memory.md R65, R66). -/
def LacksAnswer (i : Instr) (s : State) : Prop :=
  (∃ c, i = .out c ∧ s.host.outAnswers = []) ∨ (∃ c, i = .inp c ∧ s.host.inAnswers = [])

/-- The states an instruction can answer, each with what it says of the instruction. `exec_effect` ties it to
the model; a host port that did not change is `s.host`, and `s.setHost s.host` is `s`. -/
inductive ExecEffect (i : Instr) (s : State) : State → Prop
  | fatal (c : Cause) (h : HostPort) (hc : c ≠ .none) : ExecEffect i s ((s.setHost h).toFatal c)
  | hold (hi : LacksAnswer i s) : ExecEffect i s (s.setPc (s.pc - 1))
  | skip (a b c : Reg) (hi : i = .cmov a b c) : ExecEffect i s s
  | emit (h : HostPort) (c : Reg) (hi : i = .out c) : ExecEffect i s (s.setHost h)
  | writeReg (h : HostPort) (a : Reg) (v : Word) (ha : destination i = some a) :
      ExecEffect i s ((s.setHost h).setReg a v)
  | halt (hi : i = .halt) : ExecEffect i s (s.setStatus .halted)
  | store (a b c : Reg) (t : State) (hi : i = .sstore a b c)
      (ht : segWrite s (s.reg a) (s.reg b) (s.reg c) = .ok t) : ExecEffect i s t
  | map (b c : Reg) (id : Word) (u : State) (hi : i = .map b c)
      (hu : segMap s (s.reg c) = .ok (id, u)) : ExecEffect i s (u.setReg b id)
  | unmap (c : Reg) (t : State) (hi : i = .unmap c) (ht : segUnmap s (s.reg c) = .ok t) : ExecEffect i s t
  | jump (b c : Reg) (hi : i = .loadp b c) : ExecEffect i s (s.setPc (s.reg c))
  | replace (b c : Reg) (u : State) (hi : i = .loadp b c)
      (hu : segReplaceZero s (s.reg b) = .ok u) : ExecEffect i s (u.setPc (s.reg c))

/-- A fatal condition that takes no host answer. -/
theorem ExecEffect.raise {i : Instr} {s : State} {c : Cause} (hc : c ≠ .none) :
    ExecEffect i s (s.toFatal c) := .fatal c s.host hc

/-- A register write that takes no host answer. -/
theorem ExecEffect.setReg {i : Instr} {s : State} {a : Reg} (ha : destination i = some a) (v : Word) :
    ExecEffect i s (s.setReg a v) := .writeReg s.host a v ha

theorem segRead_cause_ne_none {s : State} {seg off : Word} {c : Cause}
    (h : segRead s seg off = .error c) : c ≠ .none := by
  rcases segRead_error_iff.1 h with ⟨_, rfl⟩ | ⟨_, _, _, rfl⟩ <;> decide

theorem segMap_cause_ne_none {s : State} {n : Word} {c : Cause} (h : segMap s n = .error c) :
    c ≠ .none := by
  obtain ⟨rfl, _⟩ := segMap_error_iff.1 h
  decide

theorem segUnmap_cause_ne_none {s : State} {id : Word} {c : Cause} (h : segUnmap s id = .error c) :
    c ≠ .none := by
  obtain ⟨rfl, _⟩ := segUnmap_error_iff.1 h
  decide

theorem segReplaceZero_cause_ne_none {s : State} {id : Word} {c : Cause}
    (h : segReplaceZero s id = .error c) : c ≠ .none := by
  rcases segReplaceZero_error_iff.1 h with ⟨_, rfl⟩ | ⟨_, _, _, rfl⟩ <;> decide

/-- Everything an instruction can do. -/
theorem exec_effect {i : Instr} {s t : State} (h : exec i s = .next t) : ExecEffect i s t := by
  cases i with
  | cmov a b c =>
    simp only [exec, execCmov] at h
    split at h <;> cases h
    · exact .skip a b c rfl
    · exact .setReg rfl _
  | sload a b c =>
    simp only [exec, execSload] at h
    cases hx : segRead s (s.reg b) (s.reg c) <;> rw [hx] at h <;> cases h
    · exact .raise (segRead_cause_ne_none hx)
    · exact .setReg rfl _
  | sstore a b c =>
    simp only [exec, execSstore] at h
    cases hx : segWrite s (s.reg a) (s.reg b) (s.reg c) <;> rw [hx] at h <;> cases h
    · exact .raise (segRead_cause_ne_none (segWrite_error_iff.1 hx))
    · exact .store a b c _ rfl hx
  | div a b c =>
    simp only [exec, execDiv] at h
    split at h <;> cases h
    · exact .raise (by decide)
    · exact .setReg rfl _
  | add | mul | nand | lv =>
    cases h
    exact .setReg rfl _
  | halt =>
    cases h
    exact .halt rfl
  | map b c =>
    simp only [exec, execMap] at h
    cases hx : segMap s (s.reg c) <;> rw [hx] at h <;> cases h
    · exact .raise (segMap_cause_ne_none hx)
    · exact .map b c _ _ rfl hx
  | unmap c =>
    simp only [exec, execUnmap] at h
    cases hx : segUnmap s (s.reg c) <;> rw [hx] at h <;> cases h
    · exact .raise (segUnmap_cause_ne_none hx)
    · exact .unmap c _ rfl hx
  | out c =>
    simp only [exec, execOut] at h
    split at h
    · cases h
      exact .raise (by decide)
    · rcases hostOut_cases s (byteOfWord (s.reg c)) with ⟨hnil, e⟩ | ⟨_, _, e⟩ | ⟨_, _, e⟩ <;>
        rw [e] at h <;> cases h
      · exact .hold (.inl ⟨c, rfl, hnil⟩)
      · exact .emit _ c rfl
      · exact .fatal _ _ (by decide)
  | inp c =>
    simp only [exec, execIn] at h
    rcases hostIn_cases s c with ⟨hnil, e⟩ | ⟨_, _, _, e⟩ | ⟨_, _, e⟩ | ⟨_, _, e⟩ <;>
      rw [e] at h <;> cases h
    · exact .hold (.inr ⟨c, rfl, hnil⟩)
    · exact .writeReg _ c _ rfl
    · exact .writeReg _ c _ rfl
    · exact .fatal _ _ (by decide)
  | loadp b c =>
    simp only [exec, execLoadp] at h
    split at h
    · cases h
      exact .jump b c rfl
    · cases hx : segReplaceZero s (s.reg b) <;> rw [hx] at h <;> cases h
      · exact .raise (segReplaceZero_cause_ne_none hx)
      · exact .replace b c _ rfl hx

/-! ### What the shared operations leave unchanged -/

/-- Everything but the segment table, the free list and the draw counter is unchanged. -/
structure SameOutsideAllocator (s t : State) : Prop where
  regs : t.regs = s.regs
  pc : t.pc = s.pc
  status : t.status = s.status
  cause : t.cause = s.cause
  params : t.params = s.params
  host : t.host = s.host

theorem segWrite_frame {s t : State} {seg off v : Word} (h : segWrite s seg off v = .ok t) :
    SameOutsideAllocator s t := by
  obtain ⟨_, _, _, rfl⟩ := segWrite_ok_iff.1 h
  exact ⟨rfl, rfl, rfl, rfl, rfl, rfl⟩

theorem segMap_frame {s t : State} {n id : Word} (h : segMap s n = .ok (id, t)) :
    SameOutsideAllocator s t := by
  rcases (segMap_ok h).2 with ⟨_, _, rfl⟩ | ⟨_, _, _, rfl⟩ <;> exact ⟨rfl, rfl, rfl, rfl, rfl, rfl⟩

theorem segUnmap_frame {s t : State} {id : Word} (h : segUnmap s id = .ok t) :
    SameOutsideAllocator s t := by
  obtain ⟨_, _, rfl⟩ := segUnmap_ok_iff.1 h
  exact ⟨rfl, rfl, rfl, rfl, rfl, rfl⟩

theorem segReplaceZero_frame {s t : State} {id : Word} (h : segReplaceZero s id = .ok t) :
    SameOutsideAllocator s t := by
  obtain ⟨_, _, _, rfl⟩ := segReplaceZero_ok_iff.1 h
  exact ⟨rfl, rfl, rfl, rfl, rfl, rfl⟩

theorem SameOutsideAllocator.reg {s t : State} (h : SameOutsideAllocator s t) (r : Reg) :
    t.reg r = s.reg r := congrArg (·.get r) h.regs

/-! ### Registers and the pc -/

/-- Settles O44. -/
theorem instructionsWriteOnlyTheirDestination : Obligations.InstructionsWriteOnlyTheirDestination := by
  intro i s t h r hr
  cases exec_effect h with
  | fatal | hold | skip | emit | halt | jump => rfl
  | writeReg p a v ha => exact State.setReg_reg_ne (s.setHost p) v fun e => hr (e ▸ ha)
  | store a b c _ _ ht => exact (segWrite_frame ht).reg r
  | map b c id u hi hu =>
    subst hi
    exact (State.setReg_reg_ne u id fun e => hr (congrArg some e.symm)).trans ((segMap_frame hu).reg r)
  | unmap c _ _ ht => exact (segUnmap_frame ht).reg r
  | replace b c u _ hu => exact (segReplaceZero_frame hu).reg r

/-- Settles O45. -/
theorem onlyLoadpRedirectsThePc : Obligations.OnlyLoadpRedirectsThePc := by
  intro i s t h hi
  cases exec_effect h with
  | hold hlacks => exact .inr ⟨rfl, hlacks⟩
  | fatal | skip | emit | writeReg | halt => exact .inl rfl
  | store a b c _ _ ht => exact .inl (segWrite_frame ht).pc
  | map b c id u _ hu => exact .inl (segMap_frame hu).pc
  | unmap c _ _ ht => exact .inl (segUnmap_frame ht).pc
  | jump b c hload => exact absurd hload (hi b c)
  | replace b c u hload _ => exact absurd hload (hi b c)

/-- A LOADP that is not fatal sets the pc to its target (46_load_program.md R190, R191). -/
theorem exec_loadp_pc {b c : Reg} {s t : State} (h : exec (.loadp b c) s = .next t)
    (ht : t.status ≠ .fatal) : t.pc = s.reg c := by
  cases exec_effect h with
  | jump _ _ hi | replace _ _ _ hi _ =>
    cases hi
    rfl
  | fatal => exact absurd rfl ht
  | hold hi => rcases hi with ⟨_, hi, _⟩ | ⟨_, hi, _⟩ <;> cases hi
  | skip _ _ _ hi | emit _ _ hi | writeReg _ _ _ hi | halt hi | store _ _ _ _ hi _ | map _ _ _ _ hi _
    | unmap _ _ hi _ => cases hi

/-- Only an IN or OUT without an answer and a LOADP leave the pc elsewhere than where the fetch put it, and
the hold leaves it where the fetch found it. -/
theorem exec_after_fetch_pc {i : Instr} {s t : State} (h : exec i (s.setPc (s.pc + 1)) = .next t)
    (hi : ∀ b c, i ≠ .loadp b c) : t.pc = s.pc + 1 ∨ t.pc = s.pc := by
  rcases onlyLoadpRedirectsThePc i _ t h hi with hpc | ⟨rfl, _⟩
  · exact .inl hpc
  · exact .inr (BitVec.add_sub_cancel s.pc 1)

/-! ### The segment table, by cases on the id -/

theorem Memory.slot?_setSlot {m : Memory} {id : Nat} (h : id < m.tableLen) (g : Segment) (id' : Nat) :
    (m.setSlot id g).slot? id' = if id' = id then some g else m.slot? id' := by
  split
  · next e => rw [e, Memory.slot?_setSlot_self m g h]
  · next e => exact Memory.slot?_setSlot_ne m g e

theorem Memory.slot?_clearSlot {m : Memory} (hm : m.wf = true) (id id' : Nat) :
    (m.clearSlot id).slot? id' = if id' = id then none else m.slot? id' := by
  split
  · next e => rw [e, Memory.slot?_clearSlot_self hm]
  · next e => exact Memory.slot?_clearSlot_ne m e

/-- The slot a growing table adds, filled (20_memory.md R46). -/
theorem Memory.slot?_grow_setSlot {m : Memory} (hm : m.wf = true) (g : Segment) (id : Nat) :
    (m.grow.setSlot m.tableLen g).slot? id = if id = m.tableLen then some g else m.slot? id := by
  rw [Memory.slot?_setSlot (by simp), Memory.slot?_grow hm]

theorem Memory.slot?_tableLen (m : Memory) : m.slot? m.tableLen = none := by
  simp [Memory.slot?]

theorem Memory.lt_tableLen_of_ne_none {m : Memory} {id : Nat} (h : m.slot? id ≠ none) :
    id < m.tableLen := by
  obtain ⟨g, hg⟩ := Option.ne_none_iff_exists'.1 h
  exact Memory.slot?_lt hg

/-! ### The allocator: the segment table and the free list together -/

/-- What the invariant says of the segment table and the free list of a RUNNING block (10_state.md R27, R29,
R30, R35): a word is free exactly when it is the id of an Unmapped slot below TL. -/
structure AllocatorOk (m : Memory) (fl : List Word) : Prop where
  wf : m.wf = true
  nodup : fl.Nodup
  mem_iff : ∀ id : Word, id ∈ fl ↔ id.toNat < m.tableLen ∧ m.slot? id.toNat = none
  zeroMapped : m.slot? 0 ≠ none

theorem State.Inv.allocatorOk {s : State} (h : s.Inv) (hr : s.status = .running) :
    AllocatorOk s.mem s.freeList where
  wf := h.memWf
  nodup := h.freeNodup
  mem_iff id := ⟨fun hid => ⟨h.freeBelow id hid, (h.agreement id (h.freeBelow id hid)).2 hid⟩,
    fun ⟨hlt, hnone⟩ => (h.agreement id hlt).1 hnone⟩
  zeroMapped := h.zeroMapped hr

/-- A state that is RUNNING, with its allocator in order, has the invariant. -/
theorem AllocatorOk.inv {t : State} (h : AllocatorOk t.mem t.freeList) (hr : t.status = .running)
    (hc : t.cause = .none) (hp : t.params.freeListHint ≤ 2 ^ 32) : t.Inv where
  memWf := h.wf
  freeBelow id hid := ((h.mem_iff id).1 hid).1
  freeNodup := h.nodup
  agreement id hlt := ⟨fun hnone => (h.mem_iff id).2 ⟨hlt, hnone⟩, fun hid => ((h.mem_iff id).1 hid).2⟩
  zeroMapped _ := h.zeroMapped
  causeIffFatal := by simp [hr, hc]
  idleClear hi := by simp [hr] at hi
  hintBound := hp

section Allocator

variable {m : Memory} {fl : List Word}

/-- Replacing a mapped segment by another keeps the allocator in order: SSTORE, and LOADP's segment 0. -/
theorem AllocatorOk.overwrite (h : AllocatorOk m fl) {id : Nat} (hid : m.slot? id ≠ none) {g : Segment}
    (hg : g.wf = true) : AllocatorOk (m.setSlot id g) fl := by
  have hlt := Memory.lt_tableLen_of_ne_none hid
  have hnone : ∀ id', (m.setSlot id g).slot? id' = none ↔ m.slot? id' = none := by
    intro id'
    rw [Memory.slot?_setSlot hlt]
    split
    · next e => simp [e, hid]
    · rfl
  exact ⟨Memory.setSlot_wf h.wf hlt hg, h.nodup, fun w => by rw [h.mem_iff, hnone, Memory.setSlot_tableLen],
    fun h0 => h.zeroMapped ((hnone 0).1 h0)⟩

/-- MAP's reuse of a free id keeps the allocator in order (20_memory.md R46). -/
theorem AllocatorOk.reuse (h : AllocatorOk m fl) {k : Nat} {id : Word} (hk : fl[k]? = some id)
    {g : Segment} (hg : g.wf = true) : AllocatorOk (m.setSlot id.toNat g) (fl.eraseIdx k) := by
  have hlt := ((h.mem_iff id).1 (List.mem_of_getElem? hk)).1
  have herase : fl.eraseIdx k = fl.erase id := by
    obtain ⟨hklt, rfl⟩ := List.getElem?_eq_some_iff.1 hk
    exact (h.nodup.erase_getElem k hklt).symm
  refine ⟨Memory.setSlot_wf h.wf hlt hg, h.nodup.eraseIdx k, fun id' => ?_, ?_⟩
  · rw [herase, h.nodup.mem_erase_iff, h.mem_iff, Memory.slot?_setSlot hlt, Ne, ← BitVec.toNat_inj,
      Memory.setSlot_tableLen]
    split <;> simp [*]
  · rw [Memory.slot?_setSlot hlt]
    split
    · simp
    · exact h.zeroMapped

/-- MAP's fresh id keeps the allocator in order: TL grows past it (20_memory.md R46). -/
theorem AllocatorOk.fresh (h : AllocatorOk m []) (hlt : m.tableLen < 2 ^ 32) {g : Segment}
    (hg : g.wf = true) : AllocatorOk (m.grow.setSlot m.tableLen g) [] := by
  refine ⟨Memory.setSlot_wf (Memory.grow_wf h.wf hlt) (by simp) hg, List.nodup_nil, fun id => ?_, ?_⟩
  · have hmem := h.mem_iff id
    rw [Memory.slot?_grow_setSlot h.wf]
    split
    · simp
    · simp only [List.not_mem_nil, false_iff, not_and] at hmem ⊢
      simp only [Memory.setSlot_tableLen, Memory.grow_tableLen]
      exact fun hle => hmem (by omega)
  · rw [Memory.slot?_grow_setSlot h.wf]
    split
    · simp
    · exact h.zeroMapped

/-- UNMAP's release of an id other than 0 keeps the allocator in order (20_memory.md R51). -/
theorem AllocatorOk.release (h : AllocatorOk m fl) {id : Word} (h0 : id ≠ 0)
    (hid : m.slot? id.toNat ≠ none) : AllocatorOk (m.clearSlot id.toNat) (fl ++ [id]) := by
  have hlt := Memory.lt_tableLen_of_ne_none hid
  have hnotFree : id ∉ fl := fun hmem => hid ((h.mem_iff id).1 hmem).2
  refine ⟨Memory.clearSlot_wf h.wf _, ?_, fun id' => ?_, ?_⟩
  · simpa using h.nodup.concat hnotFree
  · rw [List.mem_append, List.mem_singleton, h.mem_iff, Memory.slot?_clearSlot h.wf, ← BitVec.toNat_inj,
      Memory.clearSlot_tableLen]
    split <;> simp [*]
  · have hne : 0 ≠ id.toNat := fun e => h0 (BitVec.eq_of_toNat_eq e.symm)
    rw [Memory.slot?_clearSlot_ne m hne]
    exact h.zeroMapped

end Allocator

/-- Every allocation of MAP keeps the allocator in order. -/
theorem segMap_allocatorOk {s t : State} {n id : Word} (h : AllocatorOk s.mem s.freeList)
    (ht : segMap s n = .ok (id, t)) : AllocatorOk t.mem t.freeList := by
  have hz := Segment.zeros_wf n.isLt
  rcases (segMap_ok ht).2 with ⟨_, hget, rfl⟩ | ⟨hnil, hlt, _, rfl⟩
  · exact h.reuse hget hz
  · rw [hnil] at h
    simpa [hnil] using h.fresh hlt hz

theorem segUnmap_allocatorOk {s t : State} {id : Word} (h : AllocatorOk s.mem s.freeList)
    (ht : segUnmap s id = .ok t) : AllocatorOk t.mem t.freeList := by
  obtain ⟨h0, hid, rfl⟩ := segUnmap_ok_iff.1 ht
  exact h.release h0 hid

theorem segWrite_allocatorOk {s t : State} {seg off v : Word} (h : AllocatorOk s.mem s.freeList)
    (ht : segWrite s seg off v = .ok t) : AllocatorOk t.mem t.freeList := by
  obtain ⟨g, hg, ho, rfl⟩ := segWrite_ok_iff.1 ht
  exact h.overwrite (by simp [hg]) (Segment.write_wf (Memory.slot?_wf h.wf hg) ho v)

theorem segReplaceZero_allocatorOk {s t : State} {id : Word} (h : AllocatorOk s.mem s.freeList)
    (ht : segReplaceZero s id = .ok t) : AllocatorOk t.mem t.freeList := by
  obtain ⟨g, hg, _, rfl⟩ := segReplaceZero_ok_iff.1 ht
  exact h.overwrite h.zeroMapped (Memory.slot?_wf h.wf hg)

/-! ### The invariant under the updates of the state -/

/-- The invariant says nothing of the host's side and of the draw counter. -/
theorem State.Inv.withHost {s : State} (h : s.Inv) (k : Nat) (p : HostPort) :
    State.Inv { s with draws := k, host := p } :=
  ⟨h.memWf, h.freeBelow, h.freeNodup, h.agreement, h.zeroMapped, h.causeIffFatal, h.idleClear, h.hintBound⟩

theorem State.Inv.setHost {s : State} (h : s.Inv) (p : HostPort) : (s.setHost p).Inv :=
  h.withHost s.draws p

/-- A fatal condition keeps the invariant, in any STATUS. -/
theorem State.Inv.toFatal {s : State} (h : s.Inv) {c : Cause} (hc : c ≠ .none) : (s.toFatal c).Inv :=
  ⟨h.memWf, h.freeBelow, h.freeNodup, h.agreement, nofun, by simp [hc], nofun, h.hintBound⟩

/-- The end of a run keeps the invariant: HALT, or the end check. -/
theorem State.Inv.stop {s : State} (h : s.Inv) (hr : s.status = .running) {x : Status}
    (hx : x = .halted ∨ x = .ended) : (s.setStatus x).Inv := by
  refine h.of_same_memory hr rfl rfl rfl ?_ ?_
  · rcases hx with rfl | rfl <;> simp
  · rcases hx with rfl | rfl <;> simp [h.cause_running hr]

theorem State.Inv.setReg {s : State} (h : s.Inv) (hr : s.status = .running) (a : Reg) (v : Word) :
    (s.setReg a v).Inv :=
  h.of_same_memory hr rfl rfl rfl (by simp [hr]) h.causeIffFatal

theorem State.Inv.setPc {s : State} (h : s.Inv) (hr : s.status = .running) (x : Word) : (s.setPc x).Inv :=
  h.of_same_memory hr rfl rfl rfl (by simp [hr]) h.causeIffFatal

/-- A RUNNING block whose allocator alone has changed, and is in order, has the invariant. -/
theorem SameOutsideAllocator.inv {s t : State} (hst : SameOutsideAllocator s t) (h : s.Inv)
    (hr : s.status = .running) (ht : AllocatorOk t.mem t.freeList) : t.Inv :=
  ht.inv (hst.status.trans hr) (hst.cause.trans (h.cause_running hr)) (hst.params ▸ h.hintBound)

/-! ### The invariant along a run -/

theorem State.resetWith_inv {p : Params} (hp : p.freeListHint ≤ 2 ^ 32) : (State.resetWith p).Inv where
  memWf := Memory.empty_wf
  freeBelow := nofun
  freeNodup := List.nodup_nil
  agreement id hlt := absurd hlt (Nat.not_lt_zero _)
  zeroMapped := nofun
  causeIffFatal := by simp [State.resetWith]
  idleClear _ := ⟨rfl, rfl, rfl, rfl⟩
  hintBound := hp

/-- Settles O39. -/
theorem resetSatisfiesInvariant : Obligations.ResetSatisfiesInvariant :=
  ⟨State.resetWith_inv (Nat.zero_le _), fun _ => State.resetWith_inv⟩

theorem resetBlock_inv {s : State} (h : s.Inv) : (resetBlock s).Inv :=
  (State.resetWith_inv h.hintBound).withHost s.draws { s.host with resetLine := false }

/-- The allocator a loaded image leaves is in order (70_reset_and_hazards.md R261). -/
theorem imageMemory_allocatorOk {hint : Nat} {bytes : List Byte} (hh : hint ≤ 2 ^ 32)
    (hb : bytes.length / 4 < 2 ^ 32) : AllocatorOk (imageMemory hint bytes) (hintIds hint) := by
  refine ⟨imageMemory_wf hh hb, hintIds_nodup hh, fun id => ?_, by simp [imageMemory_slot?_zero]⟩
  rw [mem_hintIds hh]
  by_cases h0 : id = 0
  · simp [h0, imageMemory_slot?_zero]
  · have hpos : id.toNat ≠ 0 := fun e => h0 (BitVec.eq_of_toNat_eq e)
    have hlt : id.toNat < (imageMemory hint bytes).tableLen ↔ id.toNat < hint := by
      simp only [imageMemory]
      omega
    simp only [ne_eq, h0, not_false_eq_true, true_and, hlt, imageMemory_slot?_pos hint bytes hpos, and_true]

theorem loadImage_inv {s : State} (h : s.Inv) (bytes : List Byte) : (loadImage s bytes).Inv := by
  rcases loadImage_cases s bytes with ⟨_, e⟩ | ⟨⟨_, hb⟩, _, e⟩ | ⟨_, _, e⟩
  · rw [e]
    exact h.toFatal (by decide)
  · rw [e]
    exact (imageMemory_allocatorOk h.hintBound hb).inv rfl rfl h.hintBound
  · rw [e]
    exact h.toFatal (by decide)

theorem takeImage_inv {s : State} (h : s.Inv) (bytes : List Byte) : (takeImage s bytes).Inv := by
  have hdrop : s.dropImage.Inv := h.setHost _
  unfold takeImage
  split
  · exact loadImage_inv hdrop bytes
  all_goals exact hdrop

theorem exec_inv {i : Instr} {s t : State} (h : exec i s = .next t) (hs : s.Inv)
    (hr : s.status = .running) : t.Inv := by
  have ha := hs.allocatorOk hr
  cases exec_effect h with
  | fatal c p hc => exact (hs.setHost p).toFatal hc
  | hold => exact hs.setPc hr _
  | skip => exact hs
  | emit p => exact hs.setHost p
  | writeReg p a v => exact (hs.setHost p).setReg hr a v
  | halt => exact hs.stop hr (.inl rfl)
  | store a b c _ _ ht => exact (segWrite_frame ht).inv hs hr (segWrite_allocatorOk ha ht)
  | map b c id u _ hu =>
    have hf := segMap_frame hu
    exact (hf.inv hs hr (segMap_allocatorOk ha hu)).setReg (hf.status.trans hr) b id
  | unmap c _ _ ht => exact (segUnmap_frame ht).inv hs hr (segUnmap_allocatorOk ha ht)
  | jump => exact hs.setPc hr _
  | replace b c u _ hu =>
    have hf := segReplaceZero_frame hu
    exact (hf.inv hs hr (segReplaceZero_allocatorOk ha hu)).setPc (hf.status.trans hr) _

theorem endCheck_inv {s t : State} (hs : s.Inv) (hr : s.status = .running) (h : endCheck s = some t) :
    t.Inv := by
  rcases endCheck_cases s with ⟨_, e⟩ | ⟨_, _, _, e⟩ | ⟨_, _, _, _, e⟩ | ⟨_, _, _, _, e⟩ <;>
    rw [e] at h <;> cases h
  · exact hs.toFatal (by decide)
  · exact hs.stop hr (.inr rfl)

theorem cycle_inv {s t : State} (hs : s.Inv) (hr : s.status = .running) (h : cycle s = .next t) :
    t.Inv := by
  rcases cycle_cases s with ⟨u, he, e⟩ | ⟨_, e⟩ | ⟨_, _, _, e⟩ | ⟨w, i, _, _, e⟩ <;> rw [e] at h
  · cases h
    exact endCheck_inv hs hr he
  · cases h
    exact hs.toFatal (by decide)
  · cases h
    exact (hs.setPc hr _).toFatal (by decide)
  · exact exec_inv h (hs.setPc hr _) hr

/-- Settles O40: reset and image load set the allocator up afresh, and in a cycle each operation keeps it in
order. -/
theorem everyStepKeepsInvariant : Obligations.EveryStepKeepsInvariant := by
  intro s t hs h
  rcases step_cases s with ⟨_, e⟩ | ⟨_, bytes, _, e⟩ | ⟨_, _, _, e⟩ | ⟨hcyc, e⟩ | ⟨_, _, _, e⟩ <;>
    rw [e] at h
  · cases h
    exact resetBlock_inv hs
  · cases h
    exact takeImage_inv hs bytes
  · cases h
    exact hs
  · exact cycle_inv hs hcyc.1 h
  · cases h

/-! ### The lengths of the segments -/

/-- MAP leaves every mapped segment as it was: the id it hands out was Unmapped. -/
theorem segMap_slot? {s t : State} {n id : Word} (ha : AllocatorOk s.mem s.freeList)
    (h : segMap s n = .ok (id, t)) {id' : Nat} (hid' : s.mem.slot? id' ≠ none) :
    t.mem.slot? id' = s.mem.slot? id' := by
  rcases (segMap_ok h).2 with ⟨_, hget, rfl⟩ | ⟨_, _, _, rfl⟩
  · have hfree := ((ha.mem_iff id).1 (List.mem_of_getElem? hget)).2
    exact Memory.slot?_setSlot_ne s.mem _ fun e => hid' (e ▸ hfree)
  · have hne : id' ≠ s.mem.tableLen := fun e => hid' (e ▸ s.mem.slot?_tableLen)
    exact (Memory.slot?_grow_setSlot ha.wf _ id').trans (if_neg hne)

/-- A mapped segment keeps its length, unless UNMAP releases it, which segment 0 cannot be, or it is segment 0
and LOADP replaces it (10_state.md R28). -/
theorem exec_len? {i : Instr} {s t : State} {id n : Nat} (h : exec i s = .next t)
    (ha : AllocatorOk s.mem s.freeList) (hn : s.mem.len? id = some n) :
    t.mem.len? id = some n ∨ (id ≠ 0 ∧ t.mem.len? id = none) ∨ (id = 0 ∧ ∃ b c, i = .loadp b c) := by
  obtain ⟨g, hg, hlen⟩ := Memory.slot?_of_len?_some hn
  rcases exec_memory_cases h with hm | ⟨a, b, c, _, ht⟩ | ⟨b, c, w, u, _, hu, rfl⟩ | ⟨c, _, ht⟩ |
    ⟨b, c, u, hi, _, hu, rfl⟩
  · exact .inl (hm ▸ hn)
  · exact .inl ((segWrite_len? ht id).trans hn)
  · exact .inl ((Memory.len?_congr (segMap_slot? ha hu (by simp [hg]))).trans hn)
  · obtain ⟨h0, _, rfl⟩ := segUnmap_ok_iff.1 ht
    by_cases hid : id = (s.reg c).toNat
    · have hne : id ≠ 0 := fun e => h0 (BitVec.eq_of_toNat_eq (hid.symm.trans e))
      exact .inr (.inl ⟨hne, Memory.len?_of_slot?_none (hid ▸ Memory.slot?_clearSlot_self ha.wf _)⟩)
    · exact .inl ((Memory.len?_congr (Memory.slot?_clearSlot_ne s.mem hid)).trans hn)
  · obtain ⟨g', _, _, rfl⟩ := segReplaceZero_ok_iff.1 hu
    by_cases hid : id = 0
    · exact .inr (.inr ⟨hid, b, c, hi⟩)
    · exact .inl ((Memory.len?_congr (Memory.slot?_setSlot_ne s.mem g' hid)).trans hn)

/-- While RUNNING, the length of segment 0 changes only by LOADP. -/
theorem exec_len?_zero {i : Instr} {s t : State} (h : exec i s = .next t)
    (ha : AllocatorOk s.mem s.freeList) (hi : ∀ b c, i ≠ .loadp b c) : t.mem.len? 0 = s.mem.len? 0 := by
  obtain ⟨g, hg⟩ := Option.ne_none_iff_exists'.1 ha.zeroMapped
  have hn := Memory.len?_of_slot?_some hg
  rcases exec_len? h ha hn with e | ⟨h0, _⟩ | ⟨_, b, c, e⟩
  · exact e.trans hn.symm
  · exact absurd rfl h0
  · exact absurd e (hi b c)

/-- TL grows by one, for a MAP with an empty free list, or stays (10_state.md R27). -/
theorem exec_tableLen {i : Instr} {s t : State} (h : exec i s = .next t) :
    t.mem.tableLen = s.mem.tableLen ∨ (t.mem.tableLen = s.mem.tableLen + 1 ∧ s.freeList = []) := by
  rcases exec_memory_cases h with hm | ⟨a, b, c, _, ht⟩ | ⟨b, c, w, u, _, hu, rfl⟩ | ⟨c, _, ht⟩ |
    ⟨b, c, u, _, _, hu, rfl⟩
  · exact .inl (congrArg _ hm)
  · obtain ⟨_, _, _, rfl⟩ := segWrite_ok_iff.1 ht
    exact .inl rfl
  · rcases (segMap_ok hu).2 with ⟨_, _, rfl⟩ | ⟨hnil, _, _, rfl⟩
    · exact .inl rfl
    · exact .inr ⟨rfl, hnil⟩
  · obtain ⟨_, _, rfl⟩ := segUnmap_ok_iff.1 ht
    exact .inl rfl
  · obtain ⟨_, _, _, rfl⟩ := segReplaceZero_ok_iff.1 hu
    exact .inl rfl

/-- A cycle of a RUNNING block that changes the segment table or leaves the block RUNNING has run an
instruction. -/
theorem step_cycling_cases {s t : State} (hcyc : s.cycling) (h : step s = .next t) :
    (t.mem = s.mem ∧ t.status ≠ .running) ∨
      ∃ w i, s.mem.word? 0 s.pc.toNat = some w ∧ decode w = .ok i ∧
        exec i (s.setPc (s.pc + 1)) = .next t := by
  rw [step_of_cycling hcyc] at h
  rcases cycle_cases s with ⟨u, he, e⟩ | ⟨_, e⟩ | ⟨_, _, _, e⟩ | ⟨w, i, hw, hd, e⟩ <;> rw [e] at h
  · cases h
    rcases endCheck_cases s with ⟨_, e'⟩ | ⟨_, _, _, e'⟩ | ⟨_, _, _, _, e'⟩ | ⟨_, _, _, _, e'⟩ <;>
      rw [e'] at he <;> cases he <;> exact .inl ⟨rfl, by simp⟩
  · cases h
    exact .inl ⟨rfl, by simp⟩
  · cases h
    exact .inl ⟨rfl, by simp⟩
  · exact .inr ⟨w, i, hw, hd, h⟩

/-- Settles O47. -/
theorem segmentsAreNeverResized : Obligations.SegmentsAreNeverResized := by
  intro s t hs hcyc h
  rcases step_cycling_cases hcyc h with ⟨hm, _⟩ | ⟨w, i, hw, hd, hexec⟩
  · rw [hm]
    exact ⟨fun id n m _ hn hn' => Option.some.inj (hn.symm.trans hn'), fun h0 => absurd rfl h0, .inl rfl⟩
  · have ha := (hs.setPc hcyc.1 (s.pc + 1)).allocatorOk hcyc.1
    refine ⟨fun id n m h0 hn hn' => ?_, fun hne => ?_, exec_tableLen (s := s.setPc (s.pc + 1)) hexec⟩
    · rcases exec_len? hexec ha hn with e | ⟨_, e⟩ | ⟨e, _⟩
      · exact Option.some.inj (e.symm.trans hn')
      · exact absurd (e.symm.trans hn') nofun
      · exact absurd e h0
    · by_contra hno
      exact hne (exec_len?_zero (s := s.setPc (s.pc + 1)) hexec ha fun b c e => hno ⟨w, b, c, hw, e ▸ hd⟩)

/-! ### The pc -/

/-- The pc of a fetched word is below the length of segment 0, which is below 2^32 (10_state.md R25). -/
theorem toNat_pc_add_one {s : State} (hwf : s.mem.wf = true) {w : Word}
    (hw : s.mem.word? 0 s.pc.toNat = some w) : (s.pc + 1).toNat = s.pc.toNat + 1 := by
  obtain ⟨g, hg, hlt, _⟩ := Memory.word?_eq_some.1 hw
  have hlen := ((Segment.wf_iff g).1 (Memory.slot?_wf hwf hg)).1
  rw [BitVec.toNat_add]
  exact Nat.mod_eq_of_lt (show s.pc.toNat + 1 < 2 ^ 32 by omega)

/-- Settles O43. -/
theorem fetchIncrementNeverWraps : Obligations.FetchIncrementNeverWraps :=
  fun _ _ hs hf => toNat_pc_add_one hs.memWf hf.2

/-- Settles O42: an instruction other than LOADP leaves segment 0 its length and the pc at most one past the
fetched word. -/
theorem pcStaysWithinProgramExceptAfterLoadp : Obligations.PcStaysWithinProgramExceptAfterLoadp := by
  intro s t n hs hcyc h hrun hn
  rcases step_cycling_cases hcyc h with ⟨_, hstop⟩ | ⟨w, i, hw, hd, hexec⟩
  · exact absurd hrun hstop
  by_cases hload : ∃ b c, i = .loadp b c
  · obtain ⟨b, c, rfl⟩ := hload
    exact .inr ⟨w, b, c, hw, hd, exec_loadp_pc (s := s.setPc (s.pc + 1)) hexec (by simp [hrun])⟩
  · push Not at hload
    have ha := (hs.setPc hcyc.1 (s.pc + 1)).allocatorOk hcyc.1
    have hlen : s.mem.len? 0 = some n := (exec_len?_zero hexec ha hload).symm.trans hn
    obtain ⟨g, hg, hlt, _⟩ := Memory.word?_eq_some.1 hw
    obtain rfl : g.len = n := Option.some.inj ((Memory.len?_of_slot?_some hg).symm.trans hlen)
    have hinc := toNat_pc_add_one hs.memWf hw
    left
    rcases exec_after_fetch_pc hexec hload with e | e <;> rw [e] <;> omega

/-! ### The codes the host reads -/

/-- Settles O33. -/
theorem statusAndCauseCodes : Obligations.StatusAndCauseCodes := by
  unfold Obligations.StatusAndCauseCodes
  decide

end Sys2Proof.Machine

/-! The statements of 20_memory.md: the storage in use and its bound, the allocator between the image load and the
first MAP, what changes a word, and what touches the host's side. -/
namespace Sys2Proof.Machine

/-! ### The storage in use stays within WORD_CAPACITY -/

/-- The bound speaks of the parameters and the segment table alone. -/
theorem State.withinCapacity.congr {s t : State} (h : s.withinCapacity) (hp : t.params = s.params)
    (hm : t.mem = s.mem) : t.withinCapacity := by
  unfold State.withinCapacity
  rw [hp, hm]
  exact h

/-- A store replaces a segment by one of the same length. -/
theorem segWrite_storageUsed {s t : State} {seg off v : Word} (hwf : s.mem.wf = true)
    (h : segWrite s seg off v = .ok t) : t.mem.storageUsed = s.mem.storageUsed := by
  obtain ⟨g, hg, _, rfl⟩ := segWrite_ok_iff.1 h
  have hsum := Memory.storageUsed_setSlot hwf (g.write off.toNat v) (Memory.slot?_lt hg)
  rw [Memory.len?_of_slot?_some hg, Option.getD_some, Segment.write_len] at hsum
  exact Nat.add_right_cancel hsum

/-- MAP adds no more than the words it was asked for (20_memory.md R46). -/
theorem segMap_storageUsed_le {s t : State} {n id : Word} (hwf : s.mem.wf = true)
    (hfree : ∀ i ∈ s.freeList, i.toNat < s.mem.tableLen) (h : segMap s n = .ok (id, t)) :
    t.mem.storageUsed ≤ s.mem.storageUsed + n.toNat := by
  rcases (segMap_ok h).2 with ⟨_, hget, rfl⟩ | ⟨_, hlt, _, rfl⟩
  · exact (Nat.le_add_right _ _).trans_eq
      (Memory.storageUsed_setSlot hwf (Segment.zeros n.toNat) (hfree _ (List.mem_of_getElem? hget)))
  · rw [← Memory.storageUsed_grow hwf]
    exact (Nat.le_add_right _ _).trans_eq
      (Memory.storageUsed_setSlot (Memory.grow_wf hwf hlt) (Segment.zeros n.toNat) (Nat.lt_succ_self _))

/-- UNMAP takes the released segment's words off (20_memory.md R51). -/
theorem segUnmap_storageUsed_le {s t : State} {id : Word} (h : segUnmap s id = .ok t) :
    t.mem.storageUsed ≤ s.mem.storageUsed := by
  obtain ⟨_, hid, rfl⟩ := segUnmap_ok_iff.1 h
  exact (Nat.le_add_right _ _).trans_eq
    (Memory.storageUsed_clearSlot s.mem (Memory.lt_tableLen_of_ne_none hid))

/-- LOADP checks the storage it leaves in use, the old segment 0 counted off (20_memory.md R52). -/
theorem segReplaceZero_withinCapacity {s t : State} {id : Word} (hwf : s.mem.wf = true)
    (h : segReplaceZero s id = .ok t) : t.withinCapacity := by
  obtain ⟨g, hg, hfits, rfl⟩ := segReplaceZero_ok_iff.1 h
  have hsum := Memory.storageUsed_setSlot hwf g (Nat.zero_lt_of_lt (Memory.slot?_lt hg))
  refine fits_of_le ?_ hfits
  rw [State.setMem_mem]
  omega

/-- Every instruction keeps the storage in use within WORD_CAPACITY: MAP and LOADP check what they leave, and
nothing else makes it grow. -/
theorem exec_withinCapacity {i : Instr} {s t : State} (hs : s.Inv) (hcap : s.withinCapacity)
    (h : exec i s = .next t) : t.withinCapacity := by
  cases exec_effect h with
  | fatal | hold | skip | emit | writeReg | halt | jump => exact hcap.congr rfl rfl
  | store a b c _ _ ht =>
    refine fits_of_le (segWrite_storageUsed hs.memWf ht).le ?_
    rw [(segWrite_frame ht).params]
    exact hcap
  | map b c id u _ hu =>
    refine State.withinCapacity.congr (s := u) ?_ rfl rfl
    refine fits_of_le (segMap_storageUsed_le hs.memWf hs.freeBelow hu) ?_
    rw [(segMap_frame hu).params]
    exact (segMap_ok hu).1
  | unmap c _ _ ht =>
    refine fits_of_le (segUnmap_storageUsed_le ht) ?_
    rw [(segUnmap_frame ht).params]
    exact hcap
  | replace b c u _ hu => exact (segReplaceZero_withinCapacity hs.memWf hu).congr rfl rfl

theorem endCheck_frame {s t : State} (h : endCheck s = some t) : t.params = s.params ∧ t.mem = s.mem := by
  rcases endCheck_cases s with ⟨_, e⟩ | ⟨_, _, _, e⟩ | ⟨_, _, _, _, e⟩ | ⟨_, _, _, _, e⟩ <;>
    rw [e] at h <;> cases h <;> exact ⟨rfl, rfl⟩

theorem cycle_withinCapacity {s t : State} (hs : s.Inv) (hr : s.status = .running)
    (hcap : s.withinCapacity) (h : cycle s = .next t) : t.withinCapacity := by
  rcases cycle_cases s with ⟨u, he, e⟩ | ⟨_, e⟩ | ⟨_, _, _, e⟩ | ⟨w, i, _, _, e⟩ <;> rw [e] at h
  · cases h
    exact hcap.congr (endCheck_frame he).1 (endCheck_frame he).2
  · cases h
    exact hcap.congr rfl rfl
  · cases h
    exact hcap.congr rfl rfl
  · exact exec_withinCapacity (hs.setPc hr (s.pc + 1)) (hcap.congr rfl rfl) h

/-- A loaded image uses its own words and no more (70_reset_and_hazards.md R261). -/
theorem imageMemory_storageUsed (hint : Nat) (bytes : List Byte) :
    (imageMemory hint bytes).storageUsed = bytes.length / 4 := by
  simp [Memory.storageUsed, imageMemory, slotLen, imageWords_length]

theorem loadImage_withinCapacity {s : State} (hcap : s.withinCapacity) (bytes : List Byte) :
    (loadImage s bytes).withinCapacity := by
  rcases loadImage_cases s bytes with ⟨_, e⟩ | ⟨_, hfits, e⟩ | ⟨_, _, e⟩ <;> rw [e]
  · exact hcap.congr rfl rfl
  · unfold State.withinCapacity
    rw [imageMemory_storageUsed]
    exact hfits
  · exact hcap.congr rfl rfl

theorem takeImage_withinCapacity {s : State} (hcap : s.withinCapacity) (bytes : List Byte) :
    (takeImage s bytes).withinCapacity := by
  have hdrop : s.dropImage.withinCapacity := hcap.congr rfl rfl
  unfold takeImage
  split
  · exact loadImage_withinCapacity hdrop bytes
  all_goals exact hdrop

/-- Settles O41: reset leaves nothing in use, the image load and each instruction keep the bound. -/
theorem everyStepStaysWithinCapacity : Obligations.EveryStepStaysWithinCapacity := by
  intro s t hs hcap h
  rcases step_cases s with ⟨_, e⟩ | ⟨_, bytes, _, e⟩ | ⟨_, _, _, e⟩ | ⟨hcyc, e⟩ | ⟨_, _, _, e⟩ <;>
    rw [e] at h
  · cases h
    exact fits_of_le (Nat.zero_le _) hcap
  · cases h
    exact takeImage_withinCapacity hcap bytes
  · cases h
    exact hcap
  · exact cycle_withinCapacity hs hcyc.1 hcap h
  · cases h

/-! ### The allocator as the image load left it -/

theorem imageMemory_len?_ne_none_iff (hint : Nat) (bytes : List Byte) (id : Nat) :
    (imageMemory hint bytes).len? id ≠ none ↔ id = 0 := by
  by_cases h0 : id = 0
  · simp [h0, Memory.len?_eq, imageMemory_slot?_zero]
  · simp [h0, Memory.len?_eq, imageMemory_slot?_pos hint bytes h0]

/-- An image load that leaves the block RUNNING has succeeded, and leaves its allocator as loaded. -/
theorem loadImage_asLoaded {s : State} {bytes : List Byte} (h : (loadImage s bytes).status = .running) :
    (loadImage s bytes).asLoaded := by
  rcases loadImage_cases s bytes with ⟨_, e⟩ | ⟨_, _, e⟩ | ⟨_, _, e⟩ <;> rw [e] at h ⊢
  · cases h
  · exact ⟨rfl, imageMemory_len?_ne_none_iff _ bytes, rfl, rfl⟩
  · cases h

theorem takeImage_idle {s : State} (h : s.status = .idle) (bytes : List Byte) :
    takeImage s bytes = loadImage s.dropImage bytes := by
  simp [takeImage, h]

theorem takeImage_running {s : State} (h : s.status = .running) (bytes : List Byte) :
    takeImage s bytes = s.dropImage := by
  simp [takeImage, h]

/-- A pending image offer is taken, when the host does not assert reset. -/
theorem step_of_image {s : State} {bytes : List Byte} (hr : s.host.resetLine = false)
    (hi : s.host.image = some bytes) : step s = .next (takeImage s bytes) := by
  simp [step, hr, hi]

theorem State.asLoaded.running {s : State} (h : s.asLoaded) : s.status = .running := h.1

theorem State.asLoaded.len?_ne_none_iff {s : State} (h : s.asLoaded) (id : Nat) :
    s.mem.len? id ≠ none ↔ id = 0 := h.2.1 id

theorem State.asLoaded.freeList_eq {s : State} (h : s.asLoaded) :
    s.freeList = hintIds s.params.freeListHint := h.2.2.2

/-- A RUNNING block with the same ids mapped, the same TL and the same free list is as loaded when the other
was. -/
theorem State.asLoaded.congr {s t : State} (h : s.asLoaded) (hr : t.status = .running)
    (hp : t.params = s.params) (hm : ∀ id, t.mem.len? id = none ↔ s.mem.len? id = none)
    (htl : t.mem.tableLen = s.mem.tableLen) (hf : t.freeList = s.freeList) : t.asLoaded := by
  obtain ⟨_, hlen, hTL, hFL⟩ := h
  refine ⟨hr, fun id => (not_congr (hm id)).trans (hlen id), ?_, ?_⟩
  · rw [htl, hp, hTL]
  · rw [hf, hp, hFL]

/-- As loaded, only id 0 is mapped, so no UNMAP succeeds. -/
theorem segUnmap_ne_ok_of_asLoaded {s t : State} {id : Word} (hs : s.asLoaded) :
    segUnmap s id ≠ .ok t := fun h => by
  obtain ⟨h0, hid, _⟩ := segUnmap_ok_iff.1 h
  have hlen : s.mem.len? id.toNat ≠ none := fun e => hid (Memory.slot?_of_len?_none e)
  exact h0 (BitVec.eq_of_toNat_eq ((hs.len?_ne_none_iff _).1 hlen))

/-- LOADP's replacement keeps the allocator as loaded: segment 0 stays mapped. -/
theorem segReplaceZero_asLoaded {s t : State} {id : Word} (hs : s.asLoaded)
    (h : segReplaceZero s id = .ok t) : t.asLoaded := by
  have hf := segReplaceZero_frame h
  obtain ⟨g, hg, _, rfl⟩ := segReplaceZero_ok_iff.1 h
  refine hs.congr hs.running rfl (fun id' => ?_) rfl rfl
  rw [State.setMem_mem, Memory.len?_eq, Memory.slot?_setSlot (Nat.zero_lt_of_lt (Memory.slot?_lt hg))]
  split
  · next e => simp [(hs.len?_ne_none_iff id').2 e]
  · rw [Memory.len?_eq]

/-- An instruction other than MAP that leaves the block RUNNING keeps the allocator as loaded. -/
theorem exec_asLoaded {i : Instr} {s t : State} (hs : s.asLoaded) (h : exec i s = .next t)
    (hr : t.status = .running) (hi : ∀ b c, i ≠ .map b c) : t.asLoaded := by
  cases exec_effect h with
  | fatal | halt => cases hr
  | hold | skip | emit | writeReg | jump => exact hs.congr hr rfl (fun _ => Iff.rfl) rfl rfl
  | store a b c _ _ ht =>
    have hlen := segWrite_len? ht
    obtain ⟨_, _, _, rfl⟩ := segWrite_ok_iff.1 ht
    exact hs.congr hr rfl (fun id => by rw [hlen id]) rfl rfl
  | map b c _ _ hmap => exact absurd hmap (hi b c)
  | unmap c _ _ ht => exact absurd ht (segUnmap_ne_ok_of_asLoaded hs)
  | replace b c u _ hu =>
    have hu' := segReplaceZero_asLoaded hs hu
    exact hu'.congr hu'.running rfl (fun _ => Iff.rfl) rfl rfl

/-- A step that executes no MAP and leaves the block RUNNING keeps the allocator as loaded. -/
theorem step_asLoaded {s t : State} (hs : s.asLoaded) (h : step s = .next t) (hr : t.status = .running)
    (hi : ∀ w b c, s.fetches w → decode w ≠ .ok (.map b c)) : t.asLoaded := by
  rcases step_cases s with ⟨_, e⟩ | ⟨_, bytes, _, e⟩ | ⟨_, _, _, e⟩ | ⟨hcyc, _⟩ | ⟨_, _, _, e⟩
  · rw [e] at h
    cases h
    cases hr
  · rw [e, takeImage_running hs.running] at h
    cases h
    exact hs.congr hr rfl (fun _ => Iff.rfl) rfl rfl
  · rw [e] at h
    cases h
    exact hs
  · rcases step_cycling_cases hcyc h with ⟨_, hstop⟩ | ⟨w, i, hw, hd, hexec⟩
    · exact absurd hr hstop
    · have hpc : (s.setPc (s.pc + 1)).asLoaded := hs.congr hs.running rfl (fun _ => Iff.rfl) rfl rfl
      exact exec_asLoaded hpc hexec hr fun b c e => hi w b c ⟨hcyc, hw⟩ (e ▸ hd)
  · rw [e] at h
    cases h

/-! ### The first MAP, and the reference FREE_PICK -/

theorem exec_map_of_segMap {b c : Reg} {s u : State} {id : Word} (h : segMap s (s.reg c) = .ok (id, u)) :
    exec (.map b c) s = .next (u.setReg b id) := by
  simp [exec, execMap, h, Except.map]

/-- A MAP that fits completes when an id is left to hand out. -/
theorem segMap_completes {s : State} {n : Word} (hf : fits s.params (s.mem.storageUsed + n.toNat) = true)
    (hid : s.freeList = [] → s.mem.tableLen < 2 ^ 32) : ∃ id u, segMap s n = .ok (id, u) := by
  cases hx : segMap s n with
  | ok r => exact ⟨r.1, r.2, rfl⟩
  | error c =>
    rcases (segMap_error_iff.1 hx).2 with hno | ⟨hnil, hle⟩
    · simp [hf] at hno
    · exact absurd (hid hnil) (Nat.not_lt.2 hle)

/-- As loaded, the free list is empty exactly when FREE_LIST_HINT is 0 or 1. -/
theorem State.asLoaded.freeList_eq_nil_iff {s : State} (h : s.asLoaded) :
    s.freeList = [] ↔ s.params.freeListHint ≤ 1 := by
  rw [h.freeList_eq]
  simp [hintIds, List.range_eq_nil, Nat.sub_eq_zero_iff_le]

/-- As loaded with nothing free, TL is 1: the fresh id is 1. -/
theorem State.asLoaded.tableLen_of_nil {s : State} (h : s.asLoaded) (hnil : s.freeList = []) :
    s.mem.tableLen = 1 := by
  have hhint := h.freeList_eq_nil_iff.1 hnil
  obtain ⟨_, _, hTL, _⟩ := h
  omega

/-- As loaded, the free list is the image load's own, which does not hold id 0. -/
theorem State.asLoaded.free_ne_zero {s : State} (h : s.asLoaded) (hb : s.params.freeListHint ≤ 2 ^ 32)
    {id : Word} (hid : id ∈ s.freeList) : id ≠ 0 := by
  rw [h.freeList_eq] at hid
  exact ((mem_hintIds hb).1 hid).1

/-- The first MAP hands out a free id, which is not 0, or the fresh id 1 (20_memory.md R49). -/
theorem segMap_id_of_asLoaded {s u : State} {n id : Word} (h : s.asLoaded)
    (hb : s.params.freeListHint ≤ 2 ^ 32) (hu : segMap s n = .ok (id, u)) :
    id ≠ 0 ∧ (s.freeList = [] → id = 1) := by
  rcases (segMap_ok hu).2 with ⟨hne, hget, _⟩ | ⟨hnil, _, rfl, _⟩
  · exact ⟨h.free_ne_zero hb (List.mem_of_getElem? hget), fun hnil => absurd hnil hne⟩
  · rw [h.tableLen_of_nil hnil]
    exact ⟨by decide, fun _ => rfl⟩

/-- Settles O38. -/
theorem firstMapReturnsPositiveId : Obligations.FirstMapReturnsPositiveId := by
  refine ⟨fun s t bytes hidle hline himage h hr => ?_, fun s t _ => step_asLoaded, ?_⟩
  · rw [step_of_image hline himage, takeImage_idle hidle] at h
    cases h
    exact loadImage_asLoaded hr
  · intro b c s hs hl hf
    obtain ⟨id, u, hu⟩ := segMap_completes hf fun hnil => by simp [hl.tableLen_of_nil hnil]
    obtain ⟨hpos, hone⟩ := segMap_id_of_asLoaded hl hs.hintBound hu
    refine ⟨u.setReg b id, exec_map_of_segMap hu, (segMap_frame hu).status.trans hl.running, ?_, fun h0 => ?_⟩
    · rw [State.setReg_reg_self]
      exact Nat.pos_of_ne_zero fun e => hpos (BitVec.eq_of_toNat_eq e)
    · rw [State.setReg_reg_self]
      exact hone (hl.freeList_eq_nil_iff.2 (by omega))

/-- Settles O15: the reference pick is position 0 of the free list. -/
theorem mapReusesOldestUnderReferencePick : Obligations.MapReusesOldestUnderReferencePick := by
  intro b c s id rest hpick hfl hf
  obtain ⟨id', u, hu⟩ := segMap_completes hf fun hnil => by simp [hfl] at hnil
  refine ⟨u.setReg b id', exec_map_of_segMap hu, ?_⟩
  rcases (segMap_ok hu).2 with ⟨_, hget, rfl⟩ | ⟨hnil, _⟩
  · rw [pickIndex_oldest hpick, hfl] at hget ⊢
    cases hget
    exact ⟨State.setReg_reg_self _ _ _, rfl⟩
  · simp [hfl] at hnil

/-! ### What touches the host's side -/

/-- An operation that leaves the host's side alone does so as an instruction too, fatal or not. -/
theorem orFatal_host {s t : State} {r : Except Cause State} (h : orFatal s r = .next t)
    (hr : ∀ u, r = .ok u → u.host = s.host) : t.host = s.host := by
  cases r with
  | error c =>
    cases h
    rfl
  | ok u =>
    cases h
    exact hr _ rfl

theorem except_map_eq_ok {ε α β : Type} {f : α → β} {x : Except ε α} {y : β} (h : x.map f = .ok y) :
    ∃ a, x = .ok a ∧ f a = y := by
  cases x with
  | error e => cases h
  | ok a =>
    cases h
    exact ⟨a, rfl, rfl⟩

/-- No instruction but IN and OUT changes the host's side (20_memory.md R58). -/
theorem exec_host {i : Instr} {s t : State} (h : exec i s = .next t) (hout : ∀ c, i ≠ .out c)
    (hin : ∀ c, i ≠ .inp c) : t.host = s.host := by
  cases i with
  | cmov a b c =>
    simp only [exec, execCmov] at h
    split at h <;> cases h <;> rfl
  | div a b c =>
    simp only [exec, execDiv] at h
    split at h <;> cases h <;> rfl
  | add | mul | nand | lv | halt =>
    cases h
    rfl
  | sload a b c =>
    refine orFatal_host h fun u hu => ?_
    obtain ⟨_, _, rfl⟩ := except_map_eq_ok hu
    rfl
  | sstore a b c => exact orFatal_host h fun u hu => (segWrite_frame hu).host
  | map b c =>
    refine orFatal_host h fun u hu => ?_
    obtain ⟨_, hmap, rfl⟩ := except_map_eq_ok hu
    exact (segMap_frame hmap).host
  | unmap c => exact orFatal_host h fun u hu => (segUnmap_frame hu).host
  | loadp b c =>
    simp only [exec, execLoadp] at h
    split at h
    · cases h
      rfl
    · refine orFatal_host h fun u hu => ?_
      obtain ⟨_, hrep, rfl⟩ := except_map_eq_ok hu
      exact (segReplaceZero_frame hrep).host
  | out c => exact absurd rfl (hout c)
  | inp c => exact absurd rfl (hin c)

/-- An IN holds, or takes the next input answer and nothing else (20_memory.md R66). -/
theorem exec_inp_host {c : Reg} {s t : State} (h : exec (.inp c) s = .next t) :
    t.host = s.host ∨ ∃ x, s.host.inAnswers = x :: t.host.inAnswers ∧
      t.host = { s.host with inAnswers := t.host.inAnswers } := by
  simp only [exec, execIn] at h
  rcases hostIn_cases s c with ⟨_, e⟩ | ⟨_, _, hx, e⟩ | ⟨_, hx, e⟩ | ⟨_, hx, e⟩ <;>
    rw [e] at h <;> cases h
  · exact .inl rfl
  all_goals exact .inr ⟨_, hx, rfl⟩

/-- An OUT is out of range, holds, or takes the next output answer and appends its byte when that is Accept
(20_memory.md R65). -/
theorem exec_out_host {c : Reg} {s t : State} (h : exec (.out c) s = .next t) :
    t.host = s.host ∨ ∃ x, s.host.outAnswers = x :: t.host.outAnswers ∧ ∃ bs : List Byte,
      bs.length ≤ 1 ∧
        t.host = { s.host with outAnswers := t.host.outAnswers, output := s.host.output ++ bs } := by
  simp only [exec, execOut] at h
  split at h
  · cases h
    exact .inl rfl
  · rcases hostOut_cases s (byteOfWord (s.reg c)) with ⟨_, e⟩ | ⟨_, hx, e⟩ | ⟨_, hx, e⟩ <;>
      rw [e] at h <;> cases h
    · exact .inl rfl
    · exact .inr ⟨_, hx, [byteOfWord (s.reg c)], le_rfl, rfl⟩
    · exact .inr ⟨_, hx, [], Nat.zero_le _, by simp⟩

/-- Settles O46. -/
theorem onlyByteIoTouchesTheHost : Obligations.OnlyByteIoTouchesTheHost := by
  intro i s t h
  refine ⟨exec_host h, fun c hi => ?_, fun c hi => ?_⟩
  · exact exec_inp_host (hi ▸ h)
  · exact exec_out_host (hi ▸ h)

/-! ### What changes a word -/

/-- In any STATUS, MAP leaves every mapped segment as it was: a free id names an Unmapped slot, and the fresh id
is TL. -/
theorem State.Inv.segMap_slot? {s t : State} {n id : Word} (hs : s.Inv) (h : segMap s n = .ok (id, t))
    {id' : Nat} (hid' : s.mem.slot? id' ≠ none) : t.mem.slot? id' = s.mem.slot? id' := by
  rcases (segMap_ok h).2 with ⟨_, hget, rfl⟩ | ⟨_, _, _, rfl⟩
  · have hmem := List.mem_of_getElem? hget
    have hfree := (hs.agreement id (hs.freeBelow id hmem)).2 hmem
    exact Memory.slot?_setSlot_ne s.mem _ fun e => hid' (e ▸ hfree)
  · have hne : id' ≠ s.mem.tableLen := fun e => hid' (e ▸ s.mem.slot?_tableLen)
    exact (Memory.slot?_grow_setSlot hs.memWf _ id').trans (if_neg hne)

/-- UNMAP changes no word of a segment it leaves mapped. -/
theorem segUnmap_word? {s t : State} {id : Word} {id' o : Nat} {w : Word} (hwf : s.mem.wf = true)
    (h : segUnmap s id = .ok t) (hw : t.mem.word? id' o = some w) : s.mem.word? id' o = some w := by
  obtain ⟨_, _, rfl⟩ := segUnmap_ok_iff.1 h
  by_cases hid : id' = id.toNat
  · have hnone := Memory.word?_of_slot?_none (Memory.slot?_clearSlot_self hwf id.toNat) o
    rw [hid] at hw
    exact absurd (hnone.symm.trans hw) nofun
  · exact (Memory.word?_congr (Memory.slot?_clearSlot_ne s.mem hid) o).symm.trans hw

/-- LOADP's replacement gives segment 0 the words of the source, and leaves every other segment as it was. -/
theorem segReplaceZero_word? {s t : State} {id : Word} (h : segReplaceZero s id = .ok t) (id' o : Nat) :
    t.mem.word? id' o = s.mem.word? (if id' = 0 then id.toNat else id') o := by
  obtain ⟨g, hg, _, rfl⟩ := segReplaceZero_ok_iff.1 h
  have hlt := Nat.zero_lt_of_lt (Memory.slot?_lt hg)
  split
  · next h0 =>
    unfold Memory.word?
    rw [h0, State.setMem_mem, Memory.slot?_setSlot_self s.mem g hlt, hg]
  · next h0 => exact Memory.word?_congr (Memory.slot?_setSlot_ne s.mem g h0) o

/-- Settles O48: of the four operations on the segment table, MAP and UNMAP change no word that was there. -/
theorem onlySstoreOrLoadpChangesAWord : Obligations.OnlySstoreOrLoadpChangesAWord := by
  intro i s t id o v w hs h hv hw hne
  have hchanged : t.mem.word? id o ≠ s.mem.word? id o := by simpa [hv, hw] using hne
  rcases exec_memory_cases h with hm | ⟨a, b, c, hi, ht⟩ | ⟨b, c, id', u, _, hu, rfl⟩ | ⟨c, _, ht⟩ |
    ⟨b, c, u, hi, hb, hu, rfl⟩
  · exact absurd (by rw [hm]) hchanged
  · have hword := segWrite_word? hs.memWf ht id o
    split at hword
    · next hat =>
      exact .inl ⟨a, b, c, hi, hat.1.symm, hat.2.symm, Option.some.inj (hword.symm.trans hw)⟩
    · exact absurd hword hchanged
  · obtain ⟨g, hg, _⟩ := Memory.word?_eq_some.1 hv
    exact absurd (Memory.word?_congr (hs.segMap_slot? hu (by simp [hg])) o) hchanged
  · exact absurd ((segUnmap_word? hs.memWf ht hw).trans hw.symm).symm hchanged
  · have hword := segReplaceZero_word? hu id o
    split at hword
    · next h0 => exact .inr ⟨h0, b, c, hi, hb, hword.symm.trans hw⟩
    · exact absurd hword hchanged

end Sys2Proof.Machine

/-! The statements of 30_encoding.md. First the formats: the encoder's words as numbers and as the decoded word with
its ignored bits clear, and what a word that decodes says of its opcode. -/
namespace Sys2Proof

/-! ### The encoder's words as numbers -/

/-- A bit pattern after another is the first times a power of 2, plus the second. -/
theorem toNat_append_eq_add {m n : Nat} (x : BitVec m) (y : BitVec n) :
    (x ++ y).toNat = x.toNat * 2 ^ n + y.toNat := by
  rw [BitVec.toNat_append, ← Nat.shiftLeft_add_eq_or_of_lt y.isLt, Nat.shiftLeft_eq]

theorem stdWord_toNat (op : BitVec 4) (a b c : BitVec 3) :
    (stdWord op a b c).toNat =
      op.toNat * 2 ^ 28 + a.toNat * 2 ^ 6 + b.toNat * 2 ^ 3 + c.toNat := by
  simp only [stdWord, toNat_append_eq_add, BitVec.toNat_ofNat]
  omega

theorem lvWord_toNat (a : BitVec 3) (imm : BitVec 25) :
    (lvWord a imm).toNat = 13 * 2 ^ 28 + a.toNat * 2 ^ 25 + imm.toNat := by
  simp only [lvWord, toNat_append_eq_add, BitVec.toNat_ofNat]
  omega

theorem toNat_truncate_imm {imm : Word} (h : imm.toNat < 2 ^ 25) :
    (imm.truncate 25).toNat = imm.toNat := by
  rw [BitVec.truncate_eq_setWidth, BitVec.toNat_setWidth, Nat.mod_eq_of_lt h]

/-- Settles O4: every encoding is one of the two formats, with 0 in the fields the instruction does not have. -/
theorem encodingsAsNumbers : Obligations.EncodingsAsNumbers := by
  intro a b c imm himm
  refine ⟨stdWord_toNat .., stdWord_toNat .., stdWord_toNat .., stdWord_toNat .., stdWord_toNat ..,
    stdWord_toNat .., stdWord_toNat .., stdWord_toNat .., ?map, ?unmap, ?out, ?inp, ?loadp, ?lv⟩
  case lv => rw [encode, lvWord_toNat, toNat_truncate_imm himm]
  all_goals
    rw [encode, stdWord_toNat]
    simp

/-! ### A word cut into its fields -/

theorem word_eq_std_fields (w : Word) :
    w = opcodeField w ++ w.extractLsb' 9 19 ++ w.extractLsb' 6 3 ++ w.extractLsb' 3 3 ++
      w.extractLsb' 0 3 := by
  rw [opcodeField, BitVec.extractLsb'_append_extractLsb'_eq_extractLsb' (show 28 = 9 + 19 from rfl),
    BitVec.extractLsb'_append_extractLsb'_eq_extractLsb' (show 9 = 6 + 3 from rfl),
    BitVec.extractLsb'_append_extractLsb'_eq_extractLsb' (show 6 = 3 + 3 from rfl),
    BitVec.extractLsb'_append_extractLsb'_eq_extractLsb' (show 3 = 0 + 3 from rfl)]
  exact BitVec.extractLsb'_eq_self.symm

theorem word_eq_lv_fields (w : Word) :
    w = opcodeField w ++ w.extractLsb' 25 3 ++ w.extractLsb' 0 25 := by
  rw [opcodeField, BitVec.extractLsb'_append_extractLsb'_eq_extractLsb' (show 28 = 25 + 3 from rfl),
    BitVec.extractLsb'_append_extractLsb'_eq_extractLsb' (show 25 = 0 + 25 from rfl)]
  exact BitVec.extractLsb'_eq_self.symm

theorem append_and_stdWord (op op' : BitVec 4) (ignored : BitVec 19) (a a' b b' c c' : BitVec 3) :
    (op ++ ignored ++ a ++ b ++ c) &&& stdWord op' a' b' c' =
      stdWord (op &&& op') (a &&& a') (b &&& b') (c &&& c') := by
  change (op ++ ignored ++ a ++ b ++ c) &&& (op' ++ 0#19 ++ a' ++ b' ++ c') = _
  simp only [stdWord, BitVec.and_append, BitVec.and_zero]

/-- A mask with the opcode's four bits set and the ignored bits clear masks the three fields one by one. -/
theorem and_stdWord_mask (w : Word) (ma mb mc : BitVec 3) :
    w &&& stdWord (BitVec.allOnes 4) ma mb mc = stdWord (opcodeField w) (w.extractLsb' 6 3 &&& ma)
      (w.extractLsb' 3 3 &&& mb) (w.extractLsb' 0 3 &&& mc) := by
  have hand := append_and_stdWord (opcodeField w) (BitVec.allOnes 4) (w.extractLsb' 9 19)
    (w.extractLsb' 6 3) ma (w.extractLsb' 3 3) mb (w.extractLsb' 0 3) mc
  rwa [← word_eq_std_fields, BitVec.and_allOnes] at hand

section Formats

variable {w : Word} {op : BitVec 4}

theorem stdWord_of_fields_abc (h : opcodeField w = op) :
    stdWord op (fieldA w).toBits (fieldB w).toBits (fieldC w).toBits = w &&& 0xF00001FF := by
  rw [show (0xF00001FF : Word) =
    stdWord (BitVec.allOnes 4) (BitVec.allOnes 3) (BitVec.allOnes 3) (BitVec.allOnes 3) from rfl]
  simp only [and_stdWord_mask, h, fieldA, fieldB, fieldC, Reg.toBits_ofBits, BitVec.and_allOnes]

theorem stdWord_of_fields_bc (h : opcodeField w = op) :
    stdWord op 0 (fieldB w).toBits (fieldC w).toBits = w &&& 0xF000003F := by
  rw [show (0xF000003F : Word) =
    stdWord (BitVec.allOnes 4) 0#3 (BitVec.allOnes 3) (BitVec.allOnes 3) from rfl]
  simp only [and_stdWord_mask, h, fieldB, fieldC, Reg.toBits_ofBits, BitVec.and_allOnes, BitVec.and_zero]
  rfl

theorem stdWord_of_field_c (h : opcodeField w = op) :
    stdWord op 0 0 (fieldC w).toBits = w &&& 0xF0000007 := by
  rw [show (0xF0000007 : Word) = stdWord (BitVec.allOnes 4) 0#3 0#3 (BitVec.allOnes 3) from rfl]
  simp only [and_stdWord_mask, h, fieldC, Reg.toBits_ofBits, BitVec.and_allOnes, BitVec.and_zero]
  rfl

theorem stdWord_of_no_field (h : opcodeField w = op) : stdWord op 0 0 0 = w &&& 0xF0000000 := by
  rw [show (0xF0000000 : Word) = stdWord (BitVec.allOnes 4) 0#3 0#3 0#3 from rfl]
  simp only [and_stdWord_mask, h, BitVec.and_zero]
  rfl

end Formats

theorem truncate_fieldImm (w : Word) : (fieldImm w).truncate 25 = w.extractLsb' 0 25 := by
  simp [fieldImm]

theorem fieldImm_toNat (w : Word) : (fieldImm w).toNat = (w.extractLsb' 0 25).toNat :=
  BitVec.toNat_setWidth_of_le (by decide)

theorem lvWord_of_fields {w : Word} (h : opcodeField w = 13#4) :
    lvWord (fieldLvA w).toBits ((fieldImm w).truncate 25) = w := by
  rw [fieldLvA, Reg.toBits_ofBits, truncate_fieldImm, lvWord, ← h, ← word_eq_lv_fields]

/-! ### What a word decodes to -/

/-- The words that decode, each with its opcode and its instruction: the table of 30_encoding.md R85.
`decodesTo_of_decode` ties it to the model. -/
inductive DecodesTo (w : Word) : Instr → Prop
  | cmov (h : opcodeField w = 0#4) : DecodesTo w (.cmov (fieldA w) (fieldB w) (fieldC w))
  | sload (h : opcodeField w = 1#4) : DecodesTo w (.sload (fieldA w) (fieldB w) (fieldC w))
  | sstore (h : opcodeField w = 2#4) : DecodesTo w (.sstore (fieldA w) (fieldB w) (fieldC w))
  | add (h : opcodeField w = 3#4) : DecodesTo w (.add (fieldA w) (fieldB w) (fieldC w))
  | mul (h : opcodeField w = 4#4) : DecodesTo w (.mul (fieldA w) (fieldB w) (fieldC w))
  | div (h : opcodeField w = 5#4) : DecodesTo w (.div (fieldA w) (fieldB w) (fieldC w))
  | nand (h : opcodeField w = 6#4) : DecodesTo w (.nand (fieldA w) (fieldB w) (fieldC w))
  | halt (h : opcodeField w = 7#4) : DecodesTo w .halt
  | map (h : opcodeField w = 8#4) : DecodesTo w (.map (fieldB w) (fieldC w))
  | unmap (h : opcodeField w = 9#4) : DecodesTo w (.unmap (fieldC w))
  | out (h : opcodeField w = 10#4) : DecodesTo w (.out (fieldC w))
  | inp (h : opcodeField w = 11#4) : DecodesTo w (.inp (fieldC w))
  | loadp (h : opcodeField w = 12#4) : DecodesTo w (.loadp (fieldB w) (fieldC w))
  | lv (h : opcodeField w = 13#4) : DecodesTo w (.lv (fieldLvA w) (fieldImm w))

theorem decodesTo_of_decode {w : Word} {i : Instr} (h : decode w = .ok i) : DecodesTo w i := by
  unfold decode at h
  split at h <;> cases h <;> constructor <;> exact BitVec.eq_of_toNat_eq ‹_›

theorem decode_error_iff {w : Word} {e : DecodeRefusal} :
    decode w = .error e ↔ 14 ≤ (opcodeField w).toNat := by
  cases e
  unfold decode
  split
  case h_15 =>
    simp only [imp_false] at *
    simp only [true_iff]
    omega
  all_goals
    simp only [reduceCtorEq, false_iff]
    omega

/-- The opcode alone says which bits of the word are read (30_encoding.md R87). -/
theorem usedBits_eq_of_opcode {w v : Word} {i j : Instr} (hi : decode w = .ok i) (hj : decode v = .ok j)
    (hop : opcodeField v = opcodeField w) : Machine.usedBits j = Machine.usedBits i := by
  unfold decode at hi hj
  rw [hop] at hj
  split at hi <;> cases hi
  all_goals
    rename_i hn
    rw [hn] at hj
    cases hj
    rfl

/-- Settles O1, one format lemma per constructor. -/
theorem decodeOfEncodeIsIdentity : Obligations.DecodeOfEncodeIsIdentity := by
  intro i
  cases i with
  | cmov a b c => exact Laws.RoundTrip.cmov a b c
  | sload a b c => exact Laws.RoundTrip.sload a b c
  | sstore a b c => exact Laws.RoundTrip.sstore a b c
  | add a b c => exact Laws.RoundTrip.add a b c
  | mul a b c => exact Laws.RoundTrip.mul a b c
  | div a b c => exact Laws.RoundTrip.div a b c
  | nand a b c => exact Laws.RoundTrip.nand a b c
  | halt => exact Laws.RoundTrip.halt
  | map b c => exact Laws.RoundTrip.map b c
  | unmap c => exact Laws.RoundTrip.unmap c
  | out c => exact Laws.RoundTrip.out c
  | inp c => exact Laws.RoundTrip.inp c
  | loadp b c => exact Laws.RoundTrip.loadp b c
  | lv a imm => exact Laws.RoundTrip.lv a imm

theorem wellFormed_of_decode {w : Word} {i : Instr} (h : decode w = .ok i) : i.wellFormed = true := by
  cases decodesTo_of_decode h with
  | lv hop =>
    rw [Instr.wellFormed, decide_eq_true_eq, fieldImm_toNat]
    exact BitVec.isLt _
  | _ => rfl

theorem encode_of_decode {w : Word} {i : Instr} (h : decode w = .ok i) :
    encode i = w &&& Machine.usedBits i := by
  cases decodesTo_of_decode h with
  | cmov hop | sload hop | sstore hop | add hop | mul hop | div hop | nand hop =>
    exact stdWord_of_fields_abc hop
  | halt hop => exact stdWord_of_no_field hop
  | map hop | loadp hop => exact stdWord_of_fields_bc hop
  | unmap hop | out hop | inp hop => exact stdWord_of_field_c hop
  | lv hop => exact (lvWord_of_fields hop).trans BitVec.and_allOnes.symm

/-- Settles O2. -/
theorem encodeOfDecodeClearsIgnoredBits : Obligations.EncodeOfDecodeClearsIgnoredBits :=
  fun _ _ h => ⟨wellFormed_of_decode h, encode_of_decode h⟩

theorem exists_decode_of_opcode_le {w : Word} (h : (opcodeField w).toNat ≤ 13) : ∃ i, decode w = .ok i := by
  cases hd : decode w with
  | ok i => exact ⟨i, rfl⟩
  | error e =>
    have := decode_error_iff.1 hd
    omega

/-- Every opcode reads its own four bits. -/
theorem opcodeField_and_usedBits (w : Word) (i : Instr) :
    opcodeField (w &&& Machine.usedBits i) = opcodeField w := by
  have hbits : opcodeField (Machine.usedBits i) = BitVec.allOnes 4 := by
    cases i <;> simp only [Machine.usedBits] <;> decide
  rw [opcodeField] at hbits
  rw [opcodeField, BitVec.extractLsb'_and, hbits, BitVec.and_allOnes, opcodeField]

/-- Settles O3: `v` decodes too, since its opcode is that of `w`, and the two instructions have one encoding. -/
theorem ignoredBitsDoNotMatter : Obligations.IgnoredBitsDoNotMatter := by
  refine ⟨fun w v i hi hbits => ?_, fun w => exists_decode_of_opcode_le⟩
  have hop : opcodeField v = opcodeField w := by
    rw [← opcodeField_and_usedBits v i, hbits, opcodeField_and_usedBits]
  cases hj : decode v with
  | error e =>
    have herr : decode w = .error e := decode_error_iff.2 (hop ▸ decode_error_iff.1 hj)
    rw [hi] at herr
    cases herr
  | ok j =>
    have hencode : encode j = encode i := by
      rw [encode_of_decode hj, encode_of_decode hi, usedBits_eq_of_opcode hi hj hop, hbits]
    calc Except.ok j = decode (encode j) := (decodeOfEncodeIsIdentity j (wellFormed_of_decode hj)).symm
      _ = decode (encode i) := by rw [hencode]
      _ = .ok i := decodeOfEncodeIsIdentity i (wellFormed_of_decode hi)

/-- Settles O5. -/
theorem exampleWordsDecode : Obligations.ExampleWordsDecode := by
  unfold Obligations.ExampleWordsDecode
  decide

end Sys2Proof

/-! The cycle of 30_encoding.md: every instruction answers a next state, what a fetched word makes of the step, and
the idioms of R96. -/
namespace Sys2Proof.Machine

/-! ### A step answers a next state, or is the fault of a FATAL block -/

theorem orFatal_next (s : State) (r : Except Cause State) : ∃ t, orFatal s r = .next t := by
  cases r with
  | error c => exact ⟨_, rfl⟩
  | ok t => exact ⟨t, rfl⟩

/-- No instruction is refused, and none is a fault: a fatal condition is a next state. -/
theorem exec_next (i : Instr) (s : State) : ∃ t, exec i s = .next t := by
  cases i with
  | sload | sstore | map | unmap => exact orFatal_next s _
  | add | mul | nand | halt | lv => exact ⟨_, rfl⟩
  | cmov a b c =>
    simp only [exec, execCmov]
    split <;> exact ⟨_, rfl⟩
  | div a b c =>
    simp only [exec, execDiv]
    split <;> exact ⟨_, rfl⟩
  | out c =>
    simp only [exec, execOut]
    split
    · exact ⟨_, rfl⟩
    · rcases hostOut_cases s (byteOfWord (s.reg c)) with ⟨_, e⟩ | ⟨_, _, e⟩ | ⟨_, _, e⟩ <;> exact ⟨_, e⟩
  | inp c =>
    rcases hostIn_cases s c with ⟨_, e⟩ | ⟨_, _, _, e⟩ | ⟨_, _, e⟩ | ⟨_, _, e⟩ <;> exact ⟨_, e⟩
  | loadp b c =>
    simp only [exec, execLoadp]
    split
    · exact ⟨_, rfl⟩
    · exact orFatal_next s _

theorem cycle_next (s : State) : ∃ t, cycle s = .next t := by
  rcases cycle_cases s with ⟨t, _, e⟩ | ⟨_, e⟩ | ⟨_, _, _, e⟩ | ⟨_, i, _, _, e⟩
  · exact ⟨t, e⟩
  · exact ⟨_, e⟩
  · exact ⟨_, e⟩
  · rw [e]
    exact exec_next i _

theorem step_of_resting {s : State} (hline : s.host.resetLine = false) (himage : s.host.image = none)
    (hrest : s.status = .idle ∨ s.status = .halted ∨ s.status = .ended) : step s = .next s := by
  rcases hrest with h | h | h <;> simp [step, hline, himage, h, restingStep]

theorem step_of_fatal {s : State} (hline : s.host.resetLine = false) (himage : s.host.image = none)
    (h : s.status = .fatal) : step s = .fault (.fatalStop s.cause) := by
  simp [step, hline, himage, h, fatalStep]

/-- Settles O28. -/
theorem onlyARunningBlockCycles : Obligations.OnlyARunningBlockCycles := by
  refine fun s hline himage => ⟨fun hrun => ?_, step_of_resting hline himage, step_of_fatal hline himage⟩
  rw [step_of_cycling ⟨hrun, hline, himage⟩]
  exact cycle_next s

/-- Settles O29: of the branches of `step_cases`, only that of a FATAL block answers no next state. -/
theorem stepStopsOnlyInFatal : Obligations.StepStopsOnlyInFatal := by
  intro s
  by_cases hstop : s.status = .fatal ∧ s.host.resetLine = false ∧ s.host.image = none
  · obtain ⟨hfatal, hline, himage⟩ := hstop
    simp [step_of_fatal hline himage hfatal, hfatal, hline, himage, eq_comm]
  · obtain ⟨t, ht⟩ : ∃ t, step s = .next t := by
      rcases step_cases s with ⟨_, e⟩ | ⟨_, _, _, e⟩ | ⟨_, _, _, e⟩ | ⟨_, e⟩ | ⟨hline, himage, hfatal, _⟩
      · exact ⟨_, e⟩
      · exact ⟨_, e⟩
      · exact ⟨_, e⟩
      · rw [e]
        exact cycle_next s
      · exact absurd ⟨hfatal, hline, himage⟩ hstop
    refine ⟨fun r => by simp [ht], fun f => ⟨fun hf => ?_, fun ⟨hfatal, hline, himage, _⟩ => ?_⟩⟩
    · rw [ht] at hf
      cases hf
    · exact absurd ⟨hfatal, hline, himage⟩ hstop

/-! ### The end check and the fetched word -/

theorem frozenWith_toFatal (s : State) (c : Cause) : FrozenWith c s (s.toFatal c) :=
  ⟨rfl, rfl, rfl, rfl, fun _ _ => rfl, ⟨rfl, fun _ => rfl, fun _ _ => rfl⟩, ⟨rfl, rfl⟩, rfl⟩

theorem step_of_endCheck {s t : State} (hcyc : s.cycling) (h : endCheck s = some t) : step s = .next t := by
  rw [step_of_cycling hcyc, cycle, h]

/-- Settles O27. -/
theorem endCheckEndsTheRun : Obligations.EndCheckEndsTheRun := by
  intro s n hcyc hlen hend
  refine ⟨fun hbeyond hoor => ⟨s.toFatal .pcOutOfRange, step_of_endCheck hcyc ?_, frozenWith_toFatal ..⟩,
    fun hnormal => ⟨s.setStatus .ended, step_of_endCheck hcyc ?_, rfl, rfl, rfl, rfl, rfl, fun _ _ => rfl,
      ⟨rfl, fun _ => rfl, fun _ _ => rfl⟩, ⟨rfl, rfl⟩, rfl⟩⟩
  · simp [endCheck, hlen, hend, hbeyond, hoor]
  · have hno : ¬ (n < s.pc.toNat ∧ s.params.loadpOor = .fatal) := by
      rintro ⟨hlt, hoor⟩
      rcases hnormal with heq | hend
      · omega
      · simp [hoor] at hend
    simp [endCheck, hlen, hend, hno]

/-- A cycle that fetches a word dispatches on it: the pc is below the end of segment 0. -/
theorem endCheck_of_fetches {s : State} {w : Word} (h : s.fetches w) : endCheck s = none := by
  obtain ⟨g, hg, hlt, _⟩ := Memory.word?_eq_some.1 h.2
  simp [endCheck, Memory.len?_of_slot?_some hg, hlt]

theorem step_of_fetches_ok {s : State} {w : Word} {i : Instr} (h : s.fetches w) (hi : decode w = .ok i) :
    step s = exec i (s.setPc (s.pc + 1)) := by
  simp only [step_of_cycling h.1, cycle, endCheck_of_fetches h, fetchWord_ok_iff.2 h.2, hi, advancePc_eq]

theorem step_of_fetches_illegal {s : State} {w : Word} (h : s.fetches w)
    (hill : decode w = .error .illegalOpcode) :
    step s = .next ((s.setPc (s.pc + 1)).toFatal .illegalOpcode) := by
  simp only [step_of_cycling h.1, cycle, endCheck_of_fetches h, fetchWord_ok_iff.2 h.2, hill, advancePc_eq,
    raiseFatal_eq]

/-- Settles O25. -/
theorem stepRunsDecodedInstruction : Obligations.StepRunsDecodedInstruction :=
  fun _ _ _ h hi => step_of_fetches_ok h hi

/-- A store within a mapped segment completes. -/
theorem segWrite_of_len? {s : State} {seg off : Word} {n : Nat} (hn : s.mem.len? seg.toNat = some n)
    (hoff : off.toNat < n) (v : Word) : ∃ t, segWrite s seg off v = .ok t := by
  obtain ⟨g, hg, rfl⟩ := Memory.slot?_of_len?_some hn
  exact ⟨_, segWrite_ok_iff.2 ⟨g, hg, hoff, rfl⟩⟩

theorem exec_sstore_of_segWrite {s t : State} {a b c : Reg}
    (h : segWrite s (s.reg a) (s.reg b) (s.reg c) = .ok t) : exec (.sstore a b c) s = .next t := by
  rw [exec, execSstore, h, orFatal_ok]

theorem exec_sload_of_word? {s : State} {a b c : Reg} {v : Word}
    (h : s.mem.word? (s.reg b).toNat (s.reg c).toNat = some v) :
    exec (.sload a b c) s = .next (s.setReg a v) := by
  rw [exec, execSload, segRead_ok_iff.2 h]
  rfl

/-- Settles O26. -/
theorem illegalOpcodeIsFatal : Obligations.IllegalOpcodeIsFatal := by
  refine ⟨fun s w hfetch hop => ?_, fun a b c d s n hwf _ hlen hoff => ?_⟩
  · exact ⟨_, step_of_fetches_illegal hfetch (decode_error_iff.2 hop), frozenWith_toFatal ..⟩
  · obtain ⟨t, ht⟩ := segWrite_of_len? hlen hoff (s.reg c)
    have hframe := segWrite_frame ht
    have hword : t.mem.word? (s.reg a).toNat (s.reg b).toNat = some (s.reg c) := by
      rw [segWrite_word? hwf ht, if_pos ⟨rfl, rfl⟩]
    have hload : exec (.sload d a b) t = .next (t.setReg d (s.reg c)) :=
      exec_sload_of_word? (by rw [hframe.reg, hframe.reg, hword])
    exact ⟨t, _, exec_sstore_of_segWrite ht, hframe.status, hword, hload, hframe.status,
      State.setReg_reg_self ..⟩

/-! ### Holding for the host, and completing -/

/-- The hold takes the fetch's increment back. -/
theorem setPc_increment_back (s : State) :
    (s.setPc (s.pc + 1)).setPc ((s.setPc (s.pc + 1)).pc - 1) = s := by
  change s.setPc (s.pc + 1 - 1) = s
  rw [BitVec.add_sub_cancel]
  rfl

theorem exec_inp_hold {s : State} (c : Reg) (h : s.host.inAnswers = []) :
    exec (.inp c) s = .next (s.setPc (s.pc - 1)) := by
  simp only [exec, execIn, hostIn, h, holdCycle_eq]

theorem exec_out_hold {s : State} {c : Reg} (hc : (s.reg c).toNat ≤ 255) (h : s.host.outAnswers = []) :
    exec (.out c) s = .next (s.setPc (s.pc - 1)) := by
  simp only [exec, execOut, Nat.not_lt.2 hc, if_false, hostOut, h, holdCycle_eq]

theorem exec_out_of_range {s : State} {c : Reg} (hc : 255 < (s.reg c).toNat) :
    exec (.out c) s = .next (s.toFatal .outputRange) := by
  simp only [exec, execOut, hc, if_true, raiseFatal_eq]

theorem step_of_awaitsHost {s : State} (h : s.awaitsHost) : step s = .next s := by
  obtain ⟨w, c, hfetch, ⟨hdec, hnil⟩ | ⟨hdec, hle, hnil⟩⟩ := h
  · rw [step_of_fetches_ok hfetch hdec, exec_inp_hold (s := s.setPc (s.pc + 1)) c hnil,
      setPc_increment_back]
  · rw [step_of_fetches_ok hfetch hdec, exec_out_hold (s := s.setPc (s.pc + 1)) hle hnil,
      setPc_increment_back]

/-- An instruction that lacks an answer either awaits it, or is an OUT out of range, which asks for none. -/
theorem fatal_of_lacksAnswer {i : Instr} {s t : State} {w : Word} (hfetch : s.fetches w)
    (hdec : decode w = .ok i) (hlacks : LacksAnswer i s) (hno : ¬ s.awaitsHost)
    (h : exec i (s.setPc (s.pc + 1)) = .next t) : t.status = .fatal := by
  rcases hlacks with ⟨c, rfl, hnil⟩ | ⟨c, rfl, hnil⟩
  · have hrange : 255 < (s.reg c).toNat := by
      by_contra hle
      exact hno ⟨w, c, hfetch, .inr ⟨hdec, by omega, hnil⟩⟩
    rw [exec_out_of_range (s := s.setPc (s.pc + 1)) hrange] at h
    cases h
    rfl
  · exact absurd ⟨w, c, hfetch, .inl ⟨hdec, hnil⟩⟩ hno

/-- Settles O51: the pc of an instruction that completes is that of `onlyLoadpRedirectsThePc` and
`exec_loadp_pc`. -/
theorem everyCycleCompletesUnlessItAwaitsTheHost : Obligations.EveryCycleCompletesUnlessItAwaitsTheHost := by
  refine fun s hcyc => ⟨step_of_awaitsHost, fun hno => ?_⟩
  obtain ⟨t, ht⟩ : ∃ t, step s = .next t := by
    rw [step_of_cycling hcyc]
    exact cycle_next s
  refine ⟨t, ht, ?_⟩
  by_cases hrun : t.status = .running
  case neg => exact .inl hrun
  rcases step_cycling_cases hcyc ht with ⟨_, hstop⟩ | ⟨w, i, hw, hdec, hexec⟩
  · exact .inl hstop
  refine .inr ⟨w, i, ⟨hcyc, hw⟩, hdec, ?_⟩
  by_cases hload : ∃ b c, i = .loadp b c
  · obtain ⟨b, c, rfl⟩ := hload
    exact .inr ⟨b, c, rfl, exec_loadp_pc (s := s.setPc (s.pc + 1)) hexec (by simp [hrun])⟩
  · push Not at hload
    rcases onlyLoadpRedirectsThePc i _ t hexec hload with hpc | ⟨_, hlacks⟩
    · exact .inl hpc
    · have hfatal := fatal_of_lacksAnswer ⟨hcyc, hw⟩ hdec hlacks hno hexec
      simp [hrun] at hfatal

/-! ### The idioms (30_encoding.md R96) -/

theorem exec_add (a b c : Reg) (s : State) :
    exec (.add a b c) s = .next (s.setReg a (s.reg b + s.reg c)) := rfl

theorem exec_nand (a b c : Reg) (s : State) :
    exec (.nand a b c) s = .next (s.setReg a (~~~(s.reg b &&& s.reg c))) := rfl

theorem exec_loadp_of_zero {b : Reg} {s : State} (h : s.reg b = 0) (c : Reg) :
    exec (.loadp b c) s = .next (s.setPc (s.reg c)) := by
  rw [exec, execLoadp, if_pos h]

/-- Adding the two's complement subtracts, modulo 2^32. -/
theorem toNat_add_not_add_one (x y : Word) :
    ((x + (~~~y + 1)).toNat : Int) = (x.toNat - y.toNat : Int) % 2 ^ 32 := by
  have hneg : x + (~~~y + 1) = x - y := by
    rw [BitVec.sub_eq_add_neg, BitVec.neg_eq_not_add]
    rfl
  rw [hneg, BitVec.toNat_sub]
  omega

/-- SUB: T takes the two's complement of x[C], and x[B] and x[O] are read after T is written. -/
theorem sub_idiom (a b c o x : Reg) (s : State) (ho : s.reg o = 1) (hxb : x ≠ b) (hxo : x ≠ o) :
    ∃ t u v, exec (.nand x c c) s = .next t ∧ exec (.add x x o) t = .next u ∧
      exec (.add a b x) u = .next v ∧
      ((v.reg a).toNat : Int) = ((s.reg b).toNat - (s.reg c).toNat : Int) % 2 ^ 32 := by
  refine ⟨_, _, _, exec_nand .., exec_add .., exec_add .., ?_⟩
  rw [← toNat_add_not_add_one]
  simp [ho, hxb.symm, hxo.symm]

/-- Settles O24. -/
theorem idiomsComputeTheirResults : Obligations.IdiomsComputeTheirResults := by
  refine ⟨fun a b s => ⟨_, exec_nand .., ?not⟩, fun a z s hz => ⟨_, exec_nand .., ?ones⟩,
    fun a b z s hz => ⟨_, exec_add .., ?mov⟩,
    fun z c s hz => ⟨_, exec_loadp_of_zero hz c, rfl, rfl, fun _ => rfl, fun _ _ => rfl⟩, sub_idiom⟩
  case not => simp
  case ones =>
    rw [State.setReg_reg_self, hz]
    rfl
  case mov => simp [hz]

end Sys2Proof.Machine

/-! The statement of 40_conditional_move.md. First the frame that every instruction with one destination register is
held to, then CMOV's two cases. -/
namespace Sys2Proof.Machine

/-! ### The frame of one register -/

theorem OnlyRegister.refl (a : Reg) (s : State) : OnlyRegister a s s :=
  ⟨fun _ _ => rfl, rfl, ⟨rfl, fun _ => rfl, fun _ _ => rfl⟩, ⟨rfl, rfl⟩, ⟨rfl, rfl, rfl⟩, rfl⟩

theorem onlyRegister_setReg (a : Reg) (s : State) (v : Word) : OnlyRegister a s (s.setReg a v) :=
  ⟨fun _ hr => State.setReg_reg_ne s v hr, rfl, ⟨rfl, fun _ => rfl, fun _ _ => rfl⟩, ⟨rfl, rfl⟩,
    ⟨rfl, rfl, rfl⟩, rfl⟩

/-! ### CMOV -/

theorem decodesStandard_cmov : DecodesStandard 0 .cmov := by
  intro w (hop : (opcodeField w).toNat = 0)
  rw [decode, hop]
  rfl

theorem exec_cmov_of_zero {c : Reg} {s : State} (h : s.reg c = 0) (a b : Reg) :
    exec (.cmov a b c) s = .next s := by
  rw [exec, execCmov, if_pos h]

theorem exec_cmov_of_ne_zero {c : Reg} {s : State} (h : s.reg c ≠ 0) (a b : Reg) :
    exec (.cmov a b c) s = .next (s.setReg a (s.reg b)) := by
  rw [exec, execCmov, if_neg h]

/-- Settles O6, by cases on the condition register. -/
theorem cmovMovesUnlessConditionZero : Obligations.CmovMovesUnlessConditionZero := by
  refine ⟨decodesStandard_cmov, fun a b c s => ?_⟩
  by_cases hc : s.reg c = 0
  case pos => exact ⟨s, exec_cmov_of_zero hc a b, (if_pos hc).symm, .refl a s⟩
  case neg =>
    refine ⟨s.setReg a (s.reg b), exec_cmov_of_ne_zero hc a b, ?_, onlyRegister_setReg a s _⟩
    rw [State.setReg_reg_self, if_neg hc]

end Sys2Proof.Machine

/-! The statements of 41_segment_load_store.md. First the two ways a word access fails, which SLOAD and SSTORE share,
then what a store leaves alone and the law that a load reads what was stored. -/
namespace Sys2Proof.Machine

/-! ### The failing access (20_memory.md R44) -/

/-- The mapped check comes first: an unmapped segment fails at every offset. -/
theorem segRead_of_unmapped {s : State} {seg : Word} (h : s.mem.len? seg.toNat = none) (off : Word) :
    segRead s seg off = .error .unmappedSegment :=
  segRead_error_iff.2 (.inl ⟨Memory.slot?_of_len?_none h, rfl⟩)

theorem segRead_of_beyond {s : State} {seg off : Word} {n : Nat} (hn : s.mem.len? seg.toNat = some n)
    (hoff : n ≤ off.toNat) : segRead s seg off = .error .offsetOutOfBounds :=
  segRead_error_iff.2 (.inr ⟨n, hn, hoff, rfl⟩)

theorem exec_sload_frozen {s : State} {b c : Reg} {e : Cause}
    (h : segRead s (s.reg b) (s.reg c) = .error e) (a : Reg) :
    ∃ t, exec (.sload a b c) s = .next t ∧ FrozenWith e s t := by
  refine ⟨s.toFatal e, ?_, frozenWith_toFatal s e⟩
  rw [exec, execSload, h]
  rfl

/-- A store fails as the load of the same word does. -/
theorem exec_sstore_frozen {s : State} {a b : Reg} {e : Cause}
    (h : segRead s (s.reg a) (s.reg b) = .error e) (c : Reg) :
    ∃ t, exec (.sstore a b c) s = .next t ∧ FrozenWith e s t := by
  refine ⟨s.toFatal e, ?_, frozenWith_toFatal s e⟩
  rw [exec, execSstore, segWrite_error_iff.2 h, orFatal_error]

/-! ### SLOAD -/

theorem decodesStandard_sload : DecodesStandard 1 .sload := by
  intro w (hop : (opcodeField w).toNat = 1)
  rw [decode, hop]
  rfl

/-- Settles O7: the destination takes the word, or the read fails in one of its two ways. -/
theorem sloadReadsWordOrIsFatal : Obligations.SloadReadsWordOrIsFatal := by
  refine ⟨decodesStandard_sload, fun a b c s => ⟨fun v hv => ?_, fun hun => ?_, fun n hn hoff => ?_⟩⟩
  · exact ⟨s.setReg a v, exec_sload_of_word? hv, State.setReg_reg_self .., onlyRegister_setReg a s v⟩
  · exact exec_sload_frozen (segRead_of_unmapped hun _) a
  · exact exec_sload_frozen (segRead_of_beyond hn hoff) a

/-! ### SSTORE -/

theorem decodesStandard_sstore : DecodesStandard 2 .sstore := by
  intro w (hop : (opcodeField w).toNat = 2)
  rw [decode, hop]
  rfl

/-- A store allocates and releases nothing: the part of its frame that `SameOutsideAllocator` leaves open. -/
theorem segWrite_keeps_allocator {s t : State} {seg off v : Word} (h : segWrite s seg off v = .ok t) :
    t.mem.tableLen = s.mem.tableLen ∧ SameFreeList s t := by
  obtain ⟨_, _, _, rfl⟩ := segWrite_ok_iff.1 h
  exact ⟨rfl, rfl, rfl⟩

/-- The store-then-load law (41_segment_load_store.md R111), for any two registers that hold the address. -/
theorem exec_sload_after_segWrite {s t : State} {seg off v : Word} (hwf : s.mem.wf = true)
    (h : segWrite s seg off v = .ok t) {x y : Reg} (hx : t.reg x = seg) (hy : t.reg y = off) (d : Reg) :
    exec (.sload d x y) t = .next (t.setReg d v) := by
  refine exec_sload_of_word? ?_
  rw [hx, hy, segWrite_word? hwf h, if_pos ⟨rfl, rfl⟩]

/-- Settles O8, by the rules of `segWrite` when the address is in bounds and by the failing read otherwise. -/
theorem sstoreWritesOneWordOrIsFatal : Obligations.SstoreWritesOneWordOrIsFatal := by
  refine ⟨decodesStandard_sstore, fun a b c s hwf => ⟨fun n hn hoff => ?_, fun hun => ?_, fun n hn hoff => ?_⟩⟩
  · obtain ⟨t, ht⟩ := segWrite_of_len? hn hoff (s.reg c)
    have hframe := segWrite_frame ht
    obtain ⟨htl, hfree⟩ := segWrite_keeps_allocator ht
    have hword := segWrite_word? hwf ht
    exact ⟨t, exec_sstore_of_segWrite ht,
      (hword _ _).trans (if_pos ⟨rfl, rfl⟩), fun id o hne => (hword id o).trans (if_neg hne),
      segWrite_len? ht, htl, fun r _ => hframe.reg r, hframe.pc, hfree,
      ⟨hframe.status, hframe.cause, hframe.params⟩, hframe.host,
      fun d x y hx hy => ⟨_, exec_sload_after_segWrite hwf ht hx hy d, State.setReg_reg_self ..⟩⟩
  · exact exec_sstore_frozen (segRead_of_unmapped hun _) c
  · exact exec_sstore_frozen (segRead_of_beyond hn hoff) c

end Sys2Proof.Machine

/-! The statements of 42_arithmetic_logic.md. First the word operation each instruction writes to its destination, then
what that operation is as a number, or bit by bit. ADD and NAND have their `exec` equations above, with the idioms. -/
namespace Sys2Proof.Machine

/-! ### The opcodes -/

theorem decodesStandard_add : DecodesStandard 3 .add := by
  intro w (hop : (opcodeField w).toNat = 3)
  rw [decode, hop]
  rfl

theorem decodesStandard_mul : DecodesStandard 4 .mul := by
  intro w (hop : (opcodeField w).toNat = 4)
  rw [decode, hop]
  rfl

theorem decodesStandard_div : DecodesStandard 5 .div := by
  intro w (hop : (opcodeField w).toNat = 5)
  rw [decode, hop]
  rfl

theorem decodesStandard_nand : DecodesStandard 6 .nand := by
  intro w (hop : (opcodeField w).toNat = 6)
  rw [decode, hop]
  rfl

/-! ### The results as word operations -/

theorem exec_mul (a b c : Reg) (s : State) :
    exec (.mul a b c) s = .next (s.setReg a (s.reg b * s.reg c)) := rfl

theorem exec_div_of_zero {c : Reg} {s : State} (h : s.reg c = 0) (a b : Reg) :
    exec (.div a b c) s = .next (s.toFatal .divideByZero) := by
  rw [exec, execDiv, if_pos h, raiseFatal_eq]

theorem exec_div_of_ne_zero {c : Reg} {s : State} (h : s.reg c ≠ 0) (a b : Reg) :
    exec (.div a b c) s = .next (s.setReg a (s.reg b / s.reg c)) := by
  rw [exec, execDiv, if_neg h, BitVec.udiv_def]

/-! ### ADD, MUL, DIV and NAND -/

/-- Settles O9. -/
theorem addIsSumModuloWord : Obligations.AddIsSumModuloWord := by
  refine ⟨decodesStandard_add, fun a b c s => ⟨_, exec_add a b c s, ?_, onlyRegister_setReg a s _⟩⟩
  rw [State.setReg_reg_self, BitVec.toNat_add]

/-- Settles O10. -/
theorem mulIsProductModuloWord : Obligations.MulIsProductModuloWord := by
  refine ⟨decodesStandard_mul, fun a b c s => ⟨_, exec_mul a b c s, ?_, onlyRegister_setReg a s _⟩⟩
  rw [State.setReg_reg_self, BitVec.toNat_mul]

/-- Settles O11, by cases on the divisor. -/
theorem divIsFloorQuotientOrFatal : Obligations.DivIsFloorQuotientOrFatal := by
  refine ⟨decodesStandard_div, fun a b c s => ⟨fun hc => ?quotient, fun hc => ?fatal⟩⟩
  case quotient =>
    refine ⟨_, exec_div_of_ne_zero hc a b, ?_, onlyRegister_setReg a s _⟩
    rw [State.setReg_reg_self, BitVec.toNat_udiv]
  case fatal => exact ⟨_, exec_div_of_zero hc a b, frozenWith_toFatal s _⟩

/-- Settles O12. A bit at 32 or above is clear in NAND's result, so the bound on the index is needed. -/
theorem nandComplementsConjunction : Obligations.NandComplementsConjunction := by
  refine ⟨decodesStandard_nand,
    fun a b c s => ⟨_, exec_nand a b c s, fun i hi => ?_, onlyRegister_setReg a s _⟩⟩
  rw [State.setReg_reg_self, BitVec.getLsbD_not, BitVec.getLsbD_and, decide_eq_true hi, Bool.true_and]

end Sys2Proof.Machine

/-! The statement of 43_halt.md. First the words that are HALT, then what an instruction and the end check can make of
STATUS, and from these the two ways a run ends with success. -/
namespace Sys2Proof.Machine

/-! ### The words that are HALT -/

theorem opcodeField_toNat (w : Word) : (opcodeField w).toNat = w.toNat / 2 ^ 28 := by
  rw [opcodeField, BitVec.extractLsb'_toNat, Nat.shiftRight_eq_div_pow]
  have hw := w.isLt
  omega

theorem decode_halt_of_opcode {w : Word} (hop : (opcodeField w).toNat = 7) : decode w = .ok .halt := by
  rw [decode, hop]
  rfl

theorem exec_halt (s : State) : exec .halt s = .next (s.setStatus .halted) := rfl

/-! ### The ways a run ends with success -/

/-- What an instruction can make of STATUS (60_exceptions.md R220, R229). -/
theorem exec_status {i : Instr} {s t : State} (h : exec i s = .next t) :
    t.status = s.status ∨ t.status = .fatal ∨ i = .halt := by
  cases exec_effect h with
  | fatal => exact .inr (.inl rfl)
  | halt hi => exact .inr (.inr hi)
  | hold | skip | emit | writeReg | jump => exact .inl rfl
  | store _ _ _ _ _ ht => exact .inl (segWrite_frame ht).status
  | map _ _ _ _ _ hu => exact .inl (segMap_frame hu).status
  | unmap _ _ _ ht => exact .inl (segUnmap_frame ht).status
  | replace _ _ _ _ hu => exact .inl (segReplaceZero_frame hu).status

/-- A HALTED or ENDED block is neither RUNNING nor FATAL. -/
theorem State.succeeded.status_ne {s : State} (h : s.succeeded) : s.status ≠ .running ∧ s.status ≠ .fatal := by
  rcases h with h | h <;> simp [h]

theorem halt_of_exec_succeeded {i : Instr} {s t : State} (hrun : s.status = .running)
    (h : exec i s = .next t) (ht : t.succeeded) : i = .halt := by
  obtain ⟨hrunning, hfatal⟩ := ht.status_ne
  rcases exec_status h with hsame | hfat | hhalt
  · exact absurd (hsame.trans hrun) hrunning
  · exact absurd hfat hfatal
  · exact hhalt

/-- The end check ends a run only at or beyond the end of segment 0 (30_encoding.md R90). -/
theorem len?_zero_le_pc_of_endCheck {s t : State} (h : endCheck s = some t) :
    ∃ n, s.mem.len? 0 = some n ∧ n ≤ s.pc.toNat := by
  rcases endCheck_cases s with ⟨_, e⟩ | ⟨_, _, _, e⟩ | ⟨g, hg, hlt, _⟩ | ⟨g, hg, hle, _⟩
  · cases e.symm.trans h
  · cases e.symm.trans h
  · exact ⟨g.len, Memory.len?_of_slot?_some hg, hlt.le⟩
  · exact ⟨g.len, Memory.len?_of_slot?_some hg, hle⟩

/-- Settles O13: the opcode is the word divided by 2^28, and of the outcomes of a cycle only the end check's and an
instruction's can be a success. -/
theorem haltStopsWithSuccess : Obligations.HaltStopsWithSuccess := by
  refine ⟨fun w hlo hhi => decode_halt_of_opcode ?opcode, fun s => ?effect, fun s t hcyc h ht => ?success⟩
  case opcode =>
    rw [opcodeField_toNat]
    omega
  case effect =>
    exact ⟨_, exec_halt s, rfl, rfl, rfl, rfl, rfl, fun _ _ => rfl, ⟨rfl, fun _ => rfl, fun _ _ => rfl⟩,
      ⟨rfl, rfl⟩, rfl, fun hline himage => step_of_resting hline himage (.inr (.inl rfl))⟩
  case success =>
    rw [step_of_cycling hcyc] at h
    rcases cycle_cases s with ⟨_, he, _⟩ | ⟨_, e⟩ | ⟨_, _, _, e⟩ | ⟨w, i, hw, hdec, e⟩
    · exact .inr (len?_zero_le_pc_of_endCheck he)
    · cases e.symm.trans h
      exact absurd rfl ht.status_ne.2
    · cases e.symm.trans h
      exact absurd rfl ht.status_ne.2
    · have hhalt : i = .halt := halt_of_exec_succeeded (s := s.setPc (s.pc + 1)) hcyc.1 (e.symm.trans h) ht
      exact .inl ⟨w, ⟨hcyc, hw⟩, hhalt ▸ hdec⟩

end Sys2Proof.Machine

/-! The statements of 44_segment_map_unmap.md. First what MAP's allocation and UNMAP's release do to the slots and the
free list, then the two instructions, and last the round trip: with the allocator in order, the ids MAP can hand out
are the Unmapped ones, so that it is enough that the slots are as before. -/
namespace Sys2Proof.Machine

/-! ### The frame of one slot -/

theorem sameSegmentsBut_of_slot? {id : Nat} {s t : State}
    (h : ∀ id', id' ≠ id → t.mem.slot? id' = s.mem.slot? id') : SameSegmentsBut id s t :=
  fun id' hne => ⟨Memory.len?_congr (h id' hne), Memory.word?_congr (h id' hne)⟩

/-! ### The allocation (20_memory.md R46) -/

/-- Where MAP's id comes from, and what is left to hand out. -/
theorem segMap_source {s t : State} {n id : Word} (ha : AllocatorOk s.mem s.freeList)
    (h : segMap s n = .ok (id, t)) :
    (id ∈ s.freeList ∧ t.freeList = s.freeList.erase id ∧ t.mem.tableLen = s.mem.tableLen) ∨
      (s.freeList = [] ∧ id.toNat = s.mem.tableLen ∧ t.freeList = [] ∧
        t.mem.tableLen = s.mem.tableLen + 1) := by
  rcases (segMap_ok h).2 with ⟨_, hget, rfl⟩ | ⟨hnil, hlt, rfl, rfl⟩
  · obtain ⟨hk, rfl⟩ := List.getElem?_eq_some_iff.1 hget
    exact .inl ⟨List.getElem_mem hk, (ha.nodup.erase_getElem _ hk).symm, rfl⟩
  · exact .inr ⟨hnil, Nat.mod_eq_of_lt hlt, hnil, rfl⟩

theorem segMap_reuses {s t : State} {n id : Word} (ha : AllocatorOk s.mem s.freeList)
    (h : segMap s n = .ok (id, t)) (hne : s.freeList ≠ []) :
    id ∈ s.freeList ∧ t.freeList = s.freeList.erase id ∧ t.mem.tableLen = s.mem.tableLen :=
  (segMap_source ha h).resolve_right fun hfresh => hne hfresh.1

theorem segMap_takes_fresh {s t : State} {n id : Word} (ha : AllocatorOk s.mem s.freeList)
    (h : segMap s n = .ok (id, t)) (hnil : s.freeList = []) :
    id.toNat = s.mem.tableLen ∧ t.freeList = [] ∧ t.mem.tableLen = s.mem.tableLen + 1 := by
  rcases segMap_source ha h with ⟨hmem, _⟩ | ⟨_, hfresh⟩
  · simp [hnil] at hmem
  · exact hfresh

/-- The id MAP hands out names an Unmapped slot: a free one, or TL. -/
theorem segMap_id_unmapped {s t : State} {n id : Word} (ha : AllocatorOk s.mem s.freeList)
    (h : segMap s n = .ok (id, t)) : s.mem.slot? id.toNat = none := by
  rcases segMap_source ha h with ⟨hfree, _⟩ | ⟨_, hfresh, _⟩
  · exact ((ha.mem_iff id).1 hfree).2
  · exact hfresh ▸ s.mem.slot?_tableLen

/-- Id 0 is mapped while the block runs (10_state.md R35), so MAP never hands it out. -/
theorem segMap_id_ne_zero {s t : State} {n id : Word} (ha : AllocatorOk s.mem s.freeList)
    (h : segMap s n = .ok (id, t)) : id ≠ 0 := by
  rintro rfl
  exact ha.zeroMapped (segMap_id_unmapped ha h)

theorem segMap_slot?_eq {s t : State} {n id : Word} (ha : AllocatorOk s.mem s.freeList)
    (h : segMap s n = .ok (id, t)) (id' : Nat) :
    t.mem.slot? id' = if id' = id.toNat then some (Segment.zeros n.toNat) else s.mem.slot? id' := by
  rcases (segMap_ok h).2 with ⟨_, hget, rfl⟩ | ⟨_, hlt, rfl, rfl⟩
  · have hbelow := ((ha.mem_iff id).1 (List.mem_of_getElem? hget)).1
    exact Memory.slot?_setSlot hbelow _ id'
  · rw [BitVec.toNat_ofNat, Nat.mod_eq_of_lt hlt]
    exact Memory.slot?_grow_setSlot ha.wf _ id'

/-! ### The release (20_memory.md R51) -/

theorem segUnmap_slot?_eq {s t : State} {id : Word} (hwf : s.mem.wf = true) (h : segUnmap s id = .ok t)
    (id' : Nat) : t.mem.slot? id' = if id' = id.toNat then none else s.mem.slot? id' := by
  obtain ⟨_, _, rfl⟩ := segUnmap_ok_iff.1 h
  exact Memory.slot?_clearSlot hwf id.toNat id'

/-- The part of UNMAP's effect that is not in the slots: the id at the high end, and no change of TL and draws. -/
theorem segUnmap_requeues {s t : State} {id : Word} (h : segUnmap s id = .ok t) :
    t.freeList = s.freeList ++ [id] ∧ t.mem.tableLen = s.mem.tableLen ∧ t.draws = s.draws := by
  obtain ⟨_, _, rfl⟩ := segUnmap_ok_iff.1 h
  exact ⟨rfl, rfl, rfl⟩

theorem segUnmap_completes {s : State} {id : Word} (h0 : id ≠ 0) (hid : s.mem.slot? id.toNat ≠ none) :
    ∃ t, segUnmap s id = .ok t :=
  ⟨_, segUnmap_ok_iff.2 ⟨h0, hid, rfl⟩⟩

/-! ### MAP -/

theorem decodesStandard_map : DecodesStandard 8 (fun _ b c => .map b c) := by
  intro w (hop : (opcodeField w).toNat = 8)
  rw [decode, hop]
  rfl

theorem exec_map_frozen {c : Reg} {s : State} {e : Cause} (h : segMap s (s.reg c) = .error e) (b : Reg) :
    ∃ t, exec (.map b c) s = .next t ∧ FrozenWith e s t := by
  refine ⟨s.toFatal e, ?_, frozenWith_toFatal s e⟩
  rw [exec, execMap, h]
  rfl

/-- Settles O14, by the rules of `segMap`. -/
theorem mapAllocatesZeroedSegmentOrIsFatal : Obligations.MapAllocatesZeroedSegmentOrIsFatal := by
  refine ⟨decodesStandard_map, fun b c s hs hr hf hids => ?allocates, fun b c s hno => ?exhausted⟩
  case allocates =>
    have ha := hs.allocatorOk hr
    obtain ⟨id, u, hu⟩ := segMap_completes hf hids.neg_resolve_left
    have hframe := segMap_frame hu
    have hreuses := segMap_reuses ha hu
    have hfresh := segMap_takes_fresh ha hu
    have hslot := segMap_slot?_eq ha hu
    have hself : u.mem.slot? id.toNat = some (Segment.zeros (s.reg c).toNat) := (hslot _).trans (if_pos rfl)
    refine ⟨u.setReg b id, exec_map_of_segMap hu, ?_⟩
    rw [State.setReg_reg_self]
    exact ⟨segMap_id_ne_zero ha hu, Memory.len?_of_slot?_none (segMap_id_unmapped ha hu),
      Memory.len?_of_slot?_some hself, fun o ho => Memory.word?_eq_some.2 ⟨_, hself, ho, rfl⟩,
      sameSegmentsBut_of_slot? fun id' hne => (hslot id').trans (if_neg hne), hreuses, hfresh,
      fun r hrb => (State.setReg_reg_ne u id hrb).trans (hframe.reg r), hframe.pc,
      ⟨hframe.status, hframe.cause, hframe.params⟩, hframe.host⟩
  case exhausted =>
    have hcause := hno.imp_right fun ⟨hnil, hfull⟩ => And.intro hnil hfull.ge
    exact exec_map_frozen (segMap_error_iff.2 ⟨rfl, hcause⟩) b

/-! ### UNMAP -/

theorem decodesStandard_unmap : DecodesStandard 9 (fun _ _ c => .unmap c) := by
  intro w (hop : (opcodeField w).toNat = 9)
  rw [decode, hop]
  rfl

theorem exec_unmap_of_segUnmap {c : Reg} {s t : State} (h : segUnmap s (s.reg c) = .ok t) :
    exec (.unmap c) s = .next t := by
  rw [exec, execUnmap, h, orFatal_ok]

theorem exec_unmap_frozen {c : Reg} {s : State} {e : Cause} (h : segUnmap s (s.reg c) = .error e) :
    ∃ t, exec (.unmap c) s = .next t ∧ FrozenWith e s t := by
  refine ⟨s.toFatal e, ?_, frozenWith_toFatal s e⟩
  rw [exec, execUnmap, h, orFatal_error]

/-- Settles O16, by the rules of `segUnmap`. -/
theorem unmapReleasesSegmentOrIsFatal : Obligations.UnmapReleasesSegmentOrIsFatal := by
  refine ⟨decodesStandard_unmap, fun c s hwf => ⟨fun h0 hmapped => ?releases, fun hbad => ?fatal⟩⟩
  case releases =>
    obtain ⟨t, ht⟩ := segUnmap_completes h0 fun hnone => hmapped (Memory.len?_of_slot?_none hnone)
    have hframe := segUnmap_frame ht
    have hslot := segUnmap_slot?_eq hwf ht
    have hself : t.mem.slot? (s.reg c).toNat = none := (hslot _).trans (if_pos rfl)
    obtain ⟨hfree, htl, hdraws⟩ := segUnmap_requeues ht
    exact ⟨t, exec_unmap_of_segUnmap ht, Memory.len?_of_slot?_none hself, Memory.word?_of_slot?_none hself,
      sameSegmentsBut_of_slot? fun id' hne => (hslot id').trans (if_neg hne), htl, hfree, hdraws,
      fun r _ => hframe.reg r, hframe.pc, ⟨hframe.status, hframe.cause, hframe.params⟩, hframe.host⟩
  case fatal =>
    exact exec_unmap_frozen (segUnmap_error_iff.2 ⟨rfl, hbad.imp_right Memory.slot?_of_len?_none⟩)

/-! ### The round trip (44_segment_map_unmap.md R152) -/

/-- With the allocator in order, MAP can hand out the ids that are not mapped, and no others. -/
theorem AllocatorOk.available_iff {s : State} (h : AllocatorOk s.mem s.freeList) (id : Word) :
    s.available id ↔ s.mem.slot? id.toNat = none := by
  rw [State.available, h.mem_iff]
  constructor
  · rintro (⟨_, hnone⟩ | hbeyond)
    · exact hnone
    · exact if_neg (Nat.not_lt.2 hbeyond)
  · intro hnone
    exact (Nat.lt_or_ge id.toNat s.mem.tableLen).imp_left fun hlt => ⟨hlt, hnone⟩

/-- UNMAP of the id that MAP returned, which MAP has put in a register, completes: the allocator is in order, with
every slot as it was. -/
theorem segUnmap_returned_id {s t : State} {n id : Word} (ha : AllocatorOk s.mem s.freeList)
    (h : segMap s n = .ok (id, t)) (b : Reg) :
    ∃ u, segUnmap (t.setReg b id) id = .ok u ∧ AllocatorOk u.mem u.freeList ∧
      ∀ id', u.mem.slot? id' = s.mem.slot? id' := by
  have hat := segMap_allocatorOk ha h
  have hmap := segMap_slot?_eq ha h
  have hmapped : t.mem.slot? id.toNat ≠ none := by simp [hmap]
  obtain ⟨u, hu⟩ := segUnmap_completes (s := t.setReg b id) (segMap_id_ne_zero ha h) hmapped
  refine ⟨u, hu, segUnmap_allocatorOk (s := t.setReg b id) hat hu, fun id' => ?_⟩
  rw [segUnmap_slot?_eq (s := t.setReg b id) hat.wf hu]
  split
  · next hid => rw [hid, segMap_id_unmapped ha h]
  · next hid => exact (hmap id').trans (if_neg hid)

/-- Under the reference FREE_PICK, MAP takes the head of a non-empty free list. -/
theorem segMap_freeList_oldest {s t : State} {n id : Word} (hpick : s.params.freePick = .oldest)
    (h : segMap s n = .ok (id, t)) : s.freeList = id :: t.freeList ∨ (s.freeList = [] ∧ t.freeList = []) := by
  rcases (segMap_ok h).2 with ⟨_, hget, rfl⟩ | ⟨hnil, _, _, rfl⟩
  · rw [pickIndex_oldest hpick, ← List.head?_eq_getElem?, List.head?_eq_some_iff] at hget
    obtain ⟨rest, hrest⟩ := hget
    simp [pickIndex_oldest hpick, hrest]
  · exact .inr ⟨hnil, hnil⟩

/-- A head taken off a queue and put back at its end is the head again only when nothing was queued behind it. -/
theorem exists_head_of_requeue {α : Type} {l rest : List α} {a : α} (hl : l.Nodup)
    (h : l = a :: rest ∨ (l = [] ∧ rest = [])) :
    ∃ x tail, rest ++ [a] = x :: tail ∧ (x = a ↔ l.length ≤ 1) := by
  cases rest with
  | nil => exact ⟨a, [], rfl, by rcases h with rfl | ⟨rfl, _⟩ <;> simp⟩
  | cons x rest =>
    obtain rfl : l = a :: x :: rest := h.resolve_right nofun
    have hne : x ≠ a := fun e => (List.nodup_cons.1 hl).1 (e ▸ List.mem_cons_self)
    exact ⟨x, rest ++ [a], rfl, by simp [hne]⟩

/-- Settles O17: the round trip brings every slot back and keeps the allocator in order, which fixes the available
ids; the order of the free list decides what the next MAP takes. -/
theorem mapThenUnmapRestoresAvailableIds : Obligations.MapThenUnmapRestoresAvailableIds := by
  intro b c s hs hr hf hids
  have ha := hs.allocatorOk hr
  obtain ⟨id, t, ht⟩ := segMap_completes hf hids.neg_resolve_left
  obtain ⟨u, hu, hau, hslot⟩ := segUnmap_returned_id ha ht b
  obtain ⟨hfree, htl, _⟩ := segUnmap_requeues hu
  have hframe := segMap_frame ht
  have hframe' := segUnmap_frame hu
  have hself : u.mem.slot? id.toNat = none := (hslot _).trans (segMap_id_unmapped ha ht)
  have hunmap : exec (.unmap b) (t.setReg b id) = .next u :=
    exec_unmap_of_segUnmap (by rwa [State.setReg_reg_self])
  refine ⟨t.setReg b id, u, exec_map_of_segMap ht, hunmap, (hframe'.status.trans hframe.status).trans hr, ?_⟩
  rw [State.setReg_reg_self]
  refine ⟨fun id' => ?available, (hau.available_iff id).2 hself, fun hne id' => ?sameFree, fun hnil => ?fresh,
    Memory.word?_of_slot?_none hself, fun hpick d e hfit => ?next⟩
  case available => rw [hau.available_iff, ha.available_iff, hslot]
  case sameFree =>
    obtain ⟨_, _, htl'⟩ := segMap_reuses ha ht hne
    have htlu : u.mem.tableLen = s.mem.tableLen := htl.trans htl'
    rw [hau.mem_iff, ha.mem_iff, hslot, htlu]
  case fresh =>
    obtain ⟨_, hempty, htl'⟩ := segMap_takes_fresh ha ht hnil
    rw [hfree, State.setReg_freeList, hempty]
    exact ⟨rfl, htl.trans htl'⟩
  case next =>
    obtain ⟨x, tail, hx, hiff⟩ := exists_head_of_requeue ha.nodup (segMap_freeList_oldest hpick ht)
    have hpicku : u.params.freePick = .oldest := by rw [hframe'.params, State.setReg_params, hframe.params, hpick]
    obtain ⟨v, hv, hreg, _⟩ := mapReusesOldestUnderReferencePick d e u x tail hpicku (hfree.trans hx) hfit
    exact ⟨v, hv, hreg ▸ hiff⟩

end Sys2Proof.Machine

/-! The statements of 45_io.md. First what OUT and IN make of the host's next answer, one equation per answer; with no
answer both hold, which `step_of_awaitsHost` says of the step. -/
namespace Sys2Proof.Machine

/-! ### OUT -/

theorem decodesStandard_out : DecodesStandard 10 (fun _ _ c => .out c) := by
  intro w (hop : (opcodeField w).toNat = 10)
  rw [decode, hop]
  rfl

/-- In range, OUT is the transfer of 20_memory.md R65. -/
theorem exec_out_in_range {s : State} {c : Reg} (hc : (s.reg c).toNat ≤ 255) :
    exec (.out c) s = hostOut s (byteOfWord (s.reg c)) := by
  rw [exec, execOut, if_neg (Nat.not_lt.2 hc)]

theorem hostOut_of_accept {s : State} {rest : List OutAnswer} (h : s.host.outAnswers = .accept :: rest) (b : Byte) :
    hostOut s b = .next (s.setHost { s.host with outAnswers := rest, output := s.host.output ++ [b] }) := by
  simp only [hostOut, h]

theorem hostOut_of_fail {s : State} {rest : List OutAnswer} (h : s.host.outAnswers = .fail :: rest) (b : Byte) :
    hostOut s b = .next ((s.setHost { s.host with outAnswers := rest }).toFatal .outputFailure) := by
  simp only [hostOut, h, raiseFatal_eq]

/-- A value OUT lets through is the value of the byte it offers: nothing is cut off. -/
theorem byteOfWord_toNat {w : Word} (h : w.toNat ≤ 255) : (byteOfWord w).toNat = w.toNat :=
  (BitVec.toNat_setWidth 8 w).trans (Nat.mod_eq_of_lt (by omega))

/-- Settles O18, by the range of the value and then the host's answer. -/
theorem outEmitsByteOrIsFatal : Obligations.OutEmitsByteOrIsFatal := by
  refine ⟨decodesStandard_out, fun c s => ⟨fun hc => ?outOfRange, fun rest hc hans => ?accepted,
    fun rest hc hans => ?failed, fun w hc hnil hfetch hdec => ?held⟩⟩
  case outOfRange => exact ⟨_, exec_out_of_range hc, frozenWith_toFatal s _⟩
  case accepted =>
    exact ⟨_, _, (exec_out_in_range hc).trans (hostOut_of_accept hans _), byteOfWord_toNat hc, rfl, fun _ _ => rfl,
      rfl, ⟨rfl, fun _ => rfl, fun _ _ => rfl⟩, ⟨rfl, rfl⟩, ⟨rfl, rfl, rfl⟩⟩
  case failed =>
    exact ⟨_, (exec_out_in_range hc).trans (hostOut_of_fail hans _), frozenWith_toFatal (s.setHost _) _⟩
  case held => exact step_of_awaitsHost ⟨w, c, hfetch, .inr ⟨hdec, hc, hnil⟩⟩

/-! ### IN -/

theorem decodesStandard_inp : DecodesStandard 11 (fun _ _ c => .inp c) := by
  intro w (hop : (opcodeField w).toNat = 11)
  rw [decode, hop]
  rfl

theorem exec_inp_of_byte {s : State} {b : Byte} {rest : List InAnswer} (h : s.host.inAnswers = .byte b :: rest)
    (c : Reg) :
    exec (.inp c) s = .next ((s.setHost { s.host with inAnswers := rest }).setReg c (wordOfByte b)) := by
  simp only [exec, execIn, hostIn, h]

theorem exec_inp_of_eof {s : State} {rest : List InAnswer} (h : s.host.inAnswers = .eof :: rest) (c : Reg) :
    exec (.inp c) s = .next ((s.setHost { s.host with inAnswers := rest }).setReg c eofWord) := by
  simp only [exec, execIn, hostIn, h]

theorem exec_inp_of_fail {s : State} {rest : List InAnswer} (h : s.host.inAnswers = .fail :: rest) (c : Reg) :
    exec (.inp c) s = .next ((s.setHost { s.host with inAnswers := rest }).toFatal .inputFailure) := by
  simp only [exec, execIn, hostIn, h, raiseFatal_eq]

theorem wordOfByte_toNat (b : Byte) : (wordOfByte b).toNat = b.toNat :=
  BitVec.toNat_setWidth_of_le (by decide)

theorem eofWord_toNat : eofWord.toNat = 2 ^ 32 - 1 := BitVec.toNat_allOnes

/-- Settles O19, by the host's answer. A delivered word changes one register of the state with the answer taken. -/
theorem inReadsByteOrEofOrIsFatal : Obligations.InReadsByteOrEofOrIsFatal := by
  refine ⟨decodesStandard_inp, fun c s => ⟨fun b rest hans => ?byte, fun rest hans => ?eof, fun rest hans => ?failed,
    fun w hnil hfetch hdec => ?held⟩⟩
  case byte =>
    refine ⟨_, exec_inp_of_byte hans c, ?_, onlyRegister_setReg c (s.setHost _) _⟩
    rw [State.setReg_reg_self, wordOfByte_toNat]
  case eof =>
    refine ⟨_, exec_inp_of_eof hans c, ?_, onlyRegister_setReg c (s.setHost _) _⟩
    rw [State.setReg_reg_self, eofWord_toNat]
  case failed => exact ⟨_, exec_inp_of_fail hans c, frozenWith_toFatal (s.setHost _) _⟩
  case held => exact step_of_awaitsHost ⟨w, c, hfetch, .inl ⟨hdec, hnil⟩⟩

end Sys2Proof.Machine

/-! The statements of 46_load_program.md. First what the replacement of segment 0 makes of the segment table and when
it is refused, then LOADP's cases, and last that the copy and its source are stored to apart. -/
namespace Sys2Proof.Machine

/-! ### The replacement of segment 0 (20_memory.md R52) -/

theorem segReplaceZero_completes {s : State} {id : Word} {n : Nat} (hn : s.mem.len? id.toNat = some n)
    (hf : fits s.params (s.mem.storageUsed - (s.mem.len? 0).getD 0 + n) = true) :
    ∃ t, segReplaceZero s id = .ok t := by
  obtain ⟨g, hg, rfl⟩ := Memory.slot?_of_len?_some hn
  exact ⟨_, segReplaceZero_ok_iff.2 ⟨g, hg, hf, rfl⟩⟩

theorem segReplaceZero_of_unmapped {s : State} {id : Word} (h : s.mem.len? id.toNat = none) :
    segReplaceZero s id = .error .unmappedSegment :=
  segReplaceZero_error_iff.2 (.inl ⟨Memory.slot?_of_len?_none h, rfl⟩)

theorem segReplaceZero_of_exhausted {s : State} {id : Word} {n : Nat} (hn : s.mem.len? id.toNat = some n)
    (hf : fits s.params (s.mem.storageUsed - (s.mem.len? 0).getD 0 + n) = false) :
    segReplaceZero s id = .error .resourceExhausted := by
  obtain ⟨g, hg, rfl⟩ := Memory.slot?_of_len?_some hn
  exact segReplaceZero_error_iff.2 (.inr ⟨g, hg, hf, rfl⟩)

theorem segReplaceZero_slot?_eq {s t : State} {id : Word} (h : segReplaceZero s id = .ok t) (id' : Nat) :
    t.mem.slot? id' = if id' = 0 then s.mem.slot? id.toNat else s.mem.slot? id' := by
  obtain ⟨g, hg, _, rfl⟩ := segReplaceZero_ok_iff.1 h
  rw [hg]
  exact Memory.slot?_setSlot (Nat.zero_lt_of_lt (Memory.slot?_lt hg)) g id'

/-- After the replacement segment 0 and the source both hold what the source held. -/
theorem segReplaceZero_copied {s t : State} {id : Word} (h : segReplaceZero s id = .ok t) {id' : Nat}
    (hid : id' = 0 ∨ id' = id.toNat) : CopiedSegment id.toNat s id' t := by
  have hslot : t.mem.slot? id' = s.mem.slot? id.toNat := by
    rw [segReplaceZero_slot?_eq h]
    split
    · rfl
    · next h0 => rw [hid.resolve_left h0]
  refine ⟨?_, fun o => ?_⟩
  · rw [Memory.len?_eq, hslot, Memory.len?_eq]
  · simp only [Memory.word?, hslot]

theorem segReplaceZero_sameSegmentsBut {s t : State} {id : Word} (h : segReplaceZero s id = .ok t) :
    SameSegmentsBut 0 s t :=
  sameSegmentsBut_of_slot? fun id' hne => (segReplaceZero_slot?_eq h id').trans (if_neg hne)

/-- The replacement allocates and releases no id. -/
theorem segReplaceZero_keeps_allocator {s t : State} {id : Word} (h : segReplaceZero s id = .ok t) :
    t.mem.tableLen = s.mem.tableLen ∧ SameFreeList s t := by
  obtain ⟨_, _, _, rfl⟩ := segReplaceZero_ok_iff.1 h
  exact ⟨rfl, rfl, rfl⟩

/-! ### LOADP -/

theorem decodesStandard_loadp : DecodesStandard 12 (fun _ b c => .loadp b c) := by
  intro w (hop : (opcodeField w).toNat = 12)
  rw [decode, hop]
  rfl

theorem exec_loadp_of_segReplaceZero {b : Reg} {s t : State} (h0 : s.reg b ≠ 0)
    (h : segReplaceZero s (s.reg b) = .ok t) (c : Reg) :
    exec (.loadp b c) s = .next (t.setPc (s.reg c)) := by
  rw [exec, execLoadp, if_neg h0, h]
  rfl

/-- A refused replacement is fatal before the pc write. -/
theorem exec_loadp_frozen {b : Reg} {s : State} {e : Cause} (h0 : s.reg b ≠ 0)
    (h : segReplaceZero s (s.reg b) = .error e) (c : Reg) :
    ∃ t, exec (.loadp b c) s = .next t ∧ FrozenWith e s t := by
  refine ⟨s.toFatal e, ?_, frozenWith_toFatal s e⟩
  rw [exec, execLoadp, if_neg h0, h]
  rfl

/-- Settles O21: `setPc` is the update of the one field. -/
theorem loadpFromZeroIsPureJump : Obligations.LoadpFromZeroIsPureJump :=
  fun _ c _ h0 => exec_loadp_of_zero h0 c

/-- Settles O20, by the rules of `segReplaceZero`. -/
theorem loadpReplacesProgramOrIsFatal : Obligations.LoadpReplacesProgramOrIsFatal := by
  refine ⟨decodesStandard_loadp, fun b c s => ⟨fun h0 => ?jumps, fun n h0 hn hf => ?copies,
    fun h0 hun => ?unmapped, fun n h0 hn hf => ?exhausted⟩⟩
  case jumps =>
    exact ⟨_, exec_loadp_of_zero h0 c, rfl, fun _ _ => rfl, ⟨rfl, fun _ => rfl, fun _ _ => rfl⟩, ⟨rfl, rfl⟩,
      ⟨rfl, rfl, rfl⟩, rfl⟩
  case copies =>
    obtain ⟨t, ht⟩ := segReplaceZero_completes hn hf
    have hframe := segReplaceZero_frame ht
    obtain ⟨htl, hfree⟩ := segReplaceZero_keeps_allocator ht
    have hothers := segReplaceZero_sameSegmentsBut ht
    exact ⟨t.setPc (s.reg c), exec_loadp_of_segReplaceZero h0 ht c, rfl, segReplaceZero_copied ht (.inl rfl),
      hothers, htl, hfree, fun r _ => hframe.reg r,
      ⟨hframe.status, hframe.cause, hframe.params⟩, hframe.host⟩
  case unmapped => exact exec_loadp_frozen h0 (segReplaceZero_of_unmapped hun) c
  case exhausted => exact exec_loadp_frozen h0 (segReplaceZero_of_exhausted hn hf) c

/-! ### The copy is deep (10_state.md R31) -/

theorem segWrite_word?_of_ne {s t : State} {seg off v : Word} (hwf : s.mem.wf = true)
    (h : segWrite s seg off v = .ok t) {id : Nat} (hne : id ≠ seg.toNat) (o : Nat) :
    t.mem.word? id o = s.mem.word? id o :=
  (segWrite_word? hwf h id o).trans (if_neg fun hat => hne hat.1)

/-- Settles O22: the copy and its source hold the same words under two ids, and a store reaches only one id. -/
theorem loadpCopyDoesNotAlias : Obligations.LoadpCopyDoesNotAlias := by
  intro b c x y z s n hs h0 hn hf hoff hx
  obtain ⟨t, ht⟩ := segReplaceZero_completes hn hf
  have hframe := segReplaceZero_frame ht
  have hwf : (t.setPc (s.reg c)).mem.wf = true := segReplaceZero_wf (t := t) hs.memWf ht
  have hb : (s.reg b).toNat ≠ 0 := fun e => h0 (BitVec.eq_of_toNat_eq e)
  have htarget : (s.reg x).toNat = 0 ∨ (s.reg x).toNat = (s.reg b).toNat :=
    hx.imp (congrArg BitVec.toNat) (congrArg BitVec.toNat)
  have hlen : t.mem.len? (s.reg x).toNat = some n := (segReplaceZero_copied ht htarget).1.trans hn
  obtain ⟨u, hu⟩ := segWrite_of_len? (s := t.setPc (s.reg c)) hlen hoff (s.reg z)
  have hother : ∀ id, id = 0 ∨ id = (s.reg b).toNat → id ≠ (s.reg x).toNat →
      ∀ o, u.mem.word? id o = s.mem.word? (s.reg b).toNat o :=
    fun _ hid hne o => (segWrite_word?_of_ne hwf hu hne o).trans ((segReplaceZero_copied ht hid).2 o)
  refine ⟨t.setPc (s.reg c), u, exec_loadp_of_segReplaceZero h0 ht c, exec_sstore_of_segWrite ?_,
    (segWrite_frame hu).status.trans hframe.status, (segWrite_word? hwf hu _ _).trans (if_pos ⟨rfl, rfl⟩),
    fun hsource => hother 0 (.inl rfl) ?_, fun hzero => hother _ (.inr rfl) ?_⟩
  · simpa only [State.setPc_reg, hframe.reg] using hu
  · rw [hsource]
    exact hb.symm
  · rw [hzero]
    exact hb

end Sys2Proof.Machine

/-! Load value (47_load_value.md R210), by the register rules `State.setReg_reg_self` and `onlyRegister_setReg`. -/
namespace Sys2Proof.Machine

/-- The load-value format of 30_encoding.md R83: the register is `w[27:25]`, not `w[8:6]`. -/
theorem decode_lv_of_opcode {w : Word} (hop : (opcodeField w).toNat = 13) :
    decode w = .ok (.lv (fieldLvA w) (fieldImm w)) := by
  rw [decode, hop]
  rfl

theorem exec_lv (a : Reg) (imm : Word) (s : State) : exec (.lv a imm) s = .next (s.setReg a imm) := rfl

/-- Settles O23: `fieldLvA` and `fieldImm` are the two fields, and LV is one register write. -/
theorem lvLoadsZeroExtendedImmediate : Obligations.LvLoadsZeroExtendedImmediate := by
  refine ⟨fun w hop => ⟨fieldImm w, decode_lv_of_opcode hop, fieldImm_toNat w⟩, fun a imm s => ?_⟩
  exact ⟨s.setReg a imm, exec_lv a imm s, State.setReg_reg_self s a imm, onlyRegister_setReg a s imm⟩

end Sys2Proof.Machine

/-! The statements of 60_exceptions.md: a stopped run stays stopped, a fatal condition leaves the state of the
fetch, and the exit status follows STATUS. -/
namespace Sys2Proof.Machine

/-! ### A stopped run (R228, R229) -/

/-- An image offered outside IDLE is refused (70_reset_and_hazards.md R261). -/
theorem takeImage_of_not_idle {s : State} (h : s.status ≠ .idle) (bytes : List Byte) :
    takeImage s bytes = s.dropImage := by
  unfold takeImage
  split
  · next hidle => exact absurd hidle h
  all_goals rfl

/-- A stopped block waits, or refuses an image offer: only the host's side can change, and no byte is emitted. -/
theorem step_of_stopped {s t : State} (hstop : s.status = .halted ∨ s.status = .ended ∨ s.status = .fatal)
    (hline : s.host.resetLine = false) (h : step s = .next t) :
    ∃ p, t = s.setHost p ∧ p.output = s.host.output := by
  have hidle : s.status ≠ .idle := by rcases hstop with e | e | e <;> simp [e]
  have hrunning : s.status ≠ .running := by rcases hstop with e | e | e <;> simp [e]
  rcases step_cases s with ⟨hreset, _⟩ | ⟨_, bytes, _, e⟩ | ⟨_, _, _, e⟩ | ⟨hcyc, _⟩ | ⟨_, _, _, e⟩
  · exact absurd (hline.symm.trans hreset) nofun
  · rw [e, takeImage_of_not_idle hidle] at h
    cases h
    exact ⟨_, rfl, rfl⟩
  · cases e.symm.trans h
    exact ⟨s.host, rfl, rfl⟩
  · exact absurd hcyc.1 hrunning
  · cases e.symm.trans h

/-- Settles O30. -/
theorem onlyResetLeavesAStoppedRun : Obligations.OnlyResetLeavesAStoppedRun := by
  intro s t hstop hline h
  obtain ⟨p, rfl, hout⟩ := step_of_stopped hstop hline h
  exact ⟨⟨rfl, rfl, rfl⟩, rfl, fun _ _ => rfl, ⟨rfl, fun _ => rfl, fun _ _ => rfl⟩, ⟨rfl, rfl⟩, hout⟩

/-- Settles O32: EXIT_FATAL is a successor. -/
theorem exitStatusReportsHowTheRunEnded : Obligations.ExitStatusReportsHowTheRunEnded := by
  refine fun s => ⟨fun hok => ?success, fun hfatal => ⟨Config.exitFatal, ?failure, Nat.succ_ne_zero _⟩,
    fun hrun => ?unfinished⟩
  case success => rcases hok with h | h <;> simp [State.exitStatus?, h]
  case failure => simp [State.exitStatus?, hfatal]
  case unfinished => rcases hrun with h | h <;> simp [State.exitStatus?, h]

/-! ### Fatal conditions are precise (R224) -/

/-- A cause an instruction can raise: PC_OUT_OF_RANGE is the end check's (30_encoding.md R90). -/
def Cause.OfInstruction (c : Cause) : Prop := c ≠ .none ∧ c ≠ .pcOutOfRange

theorem segRead_cause {s : State} {seg off : Word} {c : Cause} (h : segRead s seg off = .error c) :
    c.OfInstruction := by
  rcases segRead_error_iff.1 h with ⟨_, rfl⟩ | ⟨_, _, _, rfl⟩ <;> exact ⟨nofun, nofun⟩

theorem segMap_cause {s : State} {n : Word} {c : Cause} (h : segMap s n = .error c) : c.OfInstruction := by
  obtain ⟨rfl, _⟩ := segMap_error_iff.1 h
  exact ⟨nofun, nofun⟩

theorem segUnmap_cause {s : State} {id : Word} {c : Cause} (h : segUnmap s id = .error c) :
    c.OfInstruction := by
  obtain ⟨rfl, _⟩ := segUnmap_error_iff.1 h
  exact ⟨nofun, nofun⟩

theorem segReplaceZero_cause {s : State} {id : Word} {c : Cause} (h : segReplaceZero s id = .error c) :
    c.OfInstruction := by
  rcases segReplaceZero_error_iff.1 h with ⟨_, rfl⟩ | ⟨_, _, _, rfl⟩ <;> exact ⟨nofun, nofun⟩

/-- The state a fatal condition of an instruction leaves: of `s` it differs in STATUS, CAUSE and, after an
INPUT_FAILURE or OUTPUT_FAILURE, in the answer the host has given (log entry 13); no byte is emitted. -/
inductive Raised (s : State) : State → Prop
  | intro (c : Cause) (p : HostPort) (hc : c.OfInstruction) (hout : p.output = s.host.output) :
      Raised s ((s.setHost p).toFatal c)

/-- A fatal condition that takes no host answer. -/
theorem Raised.toFatal {c : Cause} (s : State) (hc : c.OfInstruction) : Raised s (s.toFatal c) :=
  .intro c s.host hc rfl

/-- An operation of the block raises its own error; its result is not FATAL. -/
theorem raised_of_orFatal {s t : State} {r : Except Cause State} (h : orFatal s r = .next t)
    (ht : t.status = .fatal) (hok : ∀ u, r = .ok u → u.status ≠ .fatal)
    (herror : ∀ c, r = .error c → c.OfInstruction) : Raised s t := by
  cases r with
  | error c =>
    cases h
    exact .toFatal s (herror c rfl)
  | ok u =>
    cases h
    exact absurd ht (hok _ rfl)

theorem except_map_eq_error {ε α β : Type} {f : α → β} {x : Except ε α} {e : ε} (h : x.map f = .error e) :
    x = .error e := by
  cases x with
  | error e' =>
    cases h
    rfl
  | ok a => cases h

/-- An OUT that ends in FATAL was out of range or is answered Fail, and has emitted nothing. -/
theorem exec_out_raised {c : Reg} {s t : State} (h : exec (.out c) s = .next t) (hs : s.status ≠ .fatal)
    (ht : t.status = .fatal) : Raised s t := by
  simp only [exec, execOut] at h
  split at h
  · cases h
    exact .toFatal s ⟨nofun, nofun⟩
  · rcases hostOut_cases s (byteOfWord (s.reg c)) with ⟨_, e⟩ | ⟨_, _, e⟩ | ⟨_, _, e⟩ <;>
      cases e.symm.trans h
    · exact absurd ht hs
    · exact absurd ht hs
    · exact .intro _ _ ⟨nofun, nofun⟩ rfl

theorem exec_inp_raised {c : Reg} {s t : State} (h : exec (.inp c) s = .next t) (hs : s.status ≠ .fatal)
    (ht : t.status = .fatal) : Raised s t := by
  rcases hostIn_cases s c with ⟨_, e⟩ | ⟨_, _, _, e⟩ | ⟨_, _, e⟩ | ⟨_, _, e⟩ <;> cases e.symm.trans h
  case inr.inr.inr => exact .intro _ _ ⟨nofun, nofun⟩ rfl
  all_goals exact absurd ht hs

/-- An instruction that ends in FATAL has raised a fatal condition and done nothing else. -/
theorem exec_raised {i : Instr} {s t : State} (h : exec i s = .next t) (hs : s.status ≠ .fatal)
    (ht : t.status = .fatal) : Raised s t := by
  cases i with
  | cmov a b c =>
    simp only [exec, execCmov] at h
    split at h <;> cases h <;> exact absurd ht hs
  | add | mul | nand | lv =>
    cases h
    exact absurd ht hs
  | halt =>
    cases h
    cases ht
  | div a b c =>
    simp only [exec, execDiv] at h
    split at h <;> cases h
    · exact .toFatal s ⟨nofun, nofun⟩
    · exact absurd ht hs
  | sload a b c =>
    refine raised_of_orFatal h ht (fun u hu => ?_) fun e he => segRead_cause (except_map_eq_error he)
    obtain ⟨_, _, rfl⟩ := except_map_eq_ok hu
    exact hs
  | sstore a b c =>
    exact raised_of_orFatal h ht (fun u hu => (segWrite_frame hu).status ▸ hs)
      fun e he => segRead_cause (segWrite_error_iff.1 he)
  | map b c =>
    refine raised_of_orFatal h ht (fun u hu => ?_) fun e he => segMap_cause (except_map_eq_error he)
    obtain ⟨_, hmap, rfl⟩ := except_map_eq_ok hu
    exact (segMap_frame hmap).status ▸ hs
  | unmap c =>
    exact raised_of_orFatal h ht (fun u hu => (segUnmap_frame hu).status ▸ hs) fun e he => segUnmap_cause he
  | loadp b c =>
    simp only [exec, execLoadp] at h
    split at h
    · cases h
      exact absurd ht hs
    · refine raised_of_orFatal h ht (fun u hu => ?_) fun e he => segReplaceZero_cause (except_map_eq_error he)
      obtain ⟨_, hrep, rfl⟩ := except_map_eq_ok hu
      exact (segReplaceZero_frame hrep).status ▸ hs
  | out c => exact exec_out_raised h hs ht
  | inp c => exact exec_inp_raised h hs ht

/-- A cycle that ends in FATAL: the end check raises PC_OUT_OF_RANGE before the fetch, and everything else comes
after the fetch's increment, since segment 0 is mapped (10_state.md R35 (3)). -/
theorem cycle_raised {s t : State} (h0 : s.mem.slot? 0 ≠ none) (hs : s.status ≠ .fatal)
    (h : cycle s = .next t) (ht : t.status = .fatal) :
    t = s.toFatal .pcOutOfRange ∨ Raised (s.setPc (s.pc + 1)) t := by
  rcases cycle_cases s with ⟨u, he, e⟩ | ⟨hun, _⟩ | ⟨_, _, _, e⟩ | ⟨_, i, _, _, e⟩
  · cases e.symm.trans h
    rcases endCheck_cases s with ⟨_, e'⟩ | ⟨_, _, _, e'⟩ | ⟨_, _, _, _, e'⟩ | ⟨_, _, _, _, e'⟩ <;>
      cases e'.symm.trans he
    · exact .inl rfl
    · cases ht
  · exact absurd hun h0
  · cases e.symm.trans h
    exact .inr (.toFatal _ ⟨nofun, nofun⟩)
  · exact .inr (exec_raised (s := s.setPc (s.pc + 1)) (e.symm.trans h) hs ht)

/-- Settles O31: `toFatal` and `setHost` write nothing else, and the cause tells the two cases apart. -/
theorem fatalConditionsArePrecise : Obligations.FatalConditionsArePrecise := by
  intro s t hs hcyc h ht
  have hrun : s.status = .running := hcyc.1
  rw [step_of_cycling hcyc] at h
  rcases cycle_raised (hs.zeroMapped hrun) (by simp [hrun]) h ht with rfl | ⟨c, p, ⟨hnone, hpc⟩, hout⟩
  · exact ⟨nofun, fun _ _ => rfl, ⟨rfl, fun _ => rfl, fun _ _ => rfl⟩, ⟨rfl, rfl⟩, rfl, rfl, rfl⟩
  · exact ⟨hnone, fun _ _ => rfl, ⟨rfl, fun _ => rfl, fun _ _ => rfl⟩, ⟨rfl, rfl⟩, rfl, hout,
      (if_neg hpc).symm⟩

end Sys2Proof.Machine

/-! The statements of 70_reset_and_hazards.md: the state after reset, the state after an image load and its first
cycle, and the fetch after a store into the next word and after a LOADP. -/
namespace Sys2Proof.Machine

/-! ### Reset (R260) -/

@[simp] theorem Memory.empty_len? (id : Nat) : Memory.empty.len? id = none := rfl

@[simp] theorem State.resetWith_reg (p : Params) (r : Reg) : (State.resetWith p).reg r = 0 :=
  RegFile.get_zero r

theorem step_of_resetLine {s : State} (h : s.host.resetLine = true) : step s = .next (resetBlock s) := by
  rw [step, if_pos h]

/-- Settles O34. -/
theorem resetClearsTheBlock : Obligations.ResetClearsTheBlock :=
  ⟨fun s h => ⟨resetBlock s, step_of_resetLine h, rfl, rfl, State.resetWith_reg s.params, rfl, rfl,
      Memory.empty_len?, rfl, rfl⟩,
    fun _ hidle hline himage => step_of_resting hline himage (.inl hidle)⟩

/-! ### The words of an image (20_memory.md R54) -/

/-- Word `k` of an image is made of its bytes `4k` to `4k + 3`. -/
theorem imageWords_getD {bytes : List Byte} {k : Nat} (h : k < bytes.length / 4) :
    (imageWords bytes).getD k 0 = wordOfBytes (bytes.getD (4 * k) 0) (bytes.getD (4 * k + 1) 0)
      (bytes.getD (4 * k + 2) 0) (bytes.getD (4 * k + 3) 0) := by
  induction bytes using imageWords.induct generalizing k with
  | case1 b0 b1 b2 b3 rest ih =>
    cases k with
    | zero => rfl
    | succ k =>
      have hk : k < rest.length / 4 := by
        simp only [List.length_cons] at h
        omega
      exact ih hk
  | case2 bytes hshort =>
    have hlen := imageWords_length bytes
    rw [imageWords] at hlen
    · simp only [List.length_nil] at hlen
      omega
    · exact hshort

theorem imageMemory_len?_zero (hint : Nat) (bytes : List Byte) :
    (imageMemory hint bytes).len? 0 = some (bytes.length / 4) := by
  rw [Memory.len?_of_slot?_some (imageMemory_slot?_zero hint bytes), Segment.ofWords_len, imageWords_length]

theorem imageMemory_len?_pos (hint : Nat) (bytes : List Byte) {id : Nat} (h : id ≠ 0) :
    (imageMemory hint bytes).len? id = none :=
  Memory.len?_of_slot?_none (imageMemory_slot?_pos hint bytes h)

theorem imageMemory_word?_zero (hint : Nat) {bytes : List Byte} {k : Nat} (h : k < bytes.length / 4) :
    (imageMemory hint bytes).word? 0 k = some (wordOfBytes (bytes.getD (4 * k) 0) (bytes.getD (4 * k + 1) 0)
      (bytes.getD (4 * k + 2) 0) (bytes.getD (4 * k + 3) 0)) :=
  Memory.word?_eq_some.2 ⟨_, imageMemory_slot?_zero hint bytes,
    by rwa [Segment.ofWords_len, imageWords_length], (Segment.ofWords_read _ k).trans (imageWords_getD h)⟩

theorem hintIds_length (hint : Nat) : (hintIds hint).length = hint - 1 := by
  simp [hintIds]

theorem hintIds_getElem? {hint k : Nat} (h : k + 1 < hint) :
    (hintIds hint)[k]? = some (BitVec.ofNat 32 (k + 1)) := by
  have hk : k < hint - 1 := by omega
  simp [hintIds, hk]

/-! ### The image load (R261) -/

/-- The state an accepted image leaves. `step_of_accepted_image` ties it to the model. -/
def State.withImage (s : State) (bytes : List Byte) : State :=
  { s.dropImage with
    regs := .zero, pc := 0, mem := imageMemory s.params.freeListHint bytes,
    freeList := hintIds s.params.freeListHint, status := .running, cause := .none }

@[simp] theorem State.dropImage_params (s : State) : s.dropImage.params = s.params := rfl

section ImageOffered

variable {s : State} {bytes : List Byte} (hline : s.host.resetLine = false)
  (himage : s.host.image = some bytes)

include hline himage

theorem step_of_image_in_idle (hidle : s.status = .idle) :
    step s = .next (loadImage s.dropImage bytes) := by
  rw [step_of_image hline himage, takeImage_idle hidle]

theorem step_of_malformed_image (hidle : s.status = .idle)
    (hbad : bytes.length % 4 ≠ 0 ∨ 2 ^ 32 - 1 < bytes.length / 4) :
    step s = .next (s.dropImage.toFatal .invalidImage) := by
  rw [step_of_image_in_idle hline himage hidle, loadImage, if_pos hbad]

theorem step_of_oversized_image (hidle : s.status = .idle) (hwhole : bytes.length % 4 = 0)
    (hlen : bytes.length / 4 ≤ 2 ^ 32 - 1) (hfits : fits s.params (bytes.length / 4) = false) :
    step s = .next (s.dropImage.toFatal .resourceExhausted) := by
  rw [step_of_image_in_idle hline himage hidle, loadImage, State.dropImage_params,
    if_neg (by omega), if_neg (Bool.eq_false_iff.1 hfits)]

theorem step_of_accepted_image (hidle : s.status = .idle) (hwhole : bytes.length % 4 = 0)
    (hlen : bytes.length / 4 ≤ 2 ^ 32 - 1) (hfits : fits s.params (bytes.length / 4) = true) :
    step s = .next (s.withImage bytes) := by
  rw [step_of_image_in_idle hline himage hidle, loadImage, State.dropImage_params,
    if_neg (by omega), if_pos hfits]
  rfl

end ImageOffered

/-- Settles O35: the values of the loaded state are those of `imageMemory` and `hintIds`. -/
theorem resetAndLoadedValues : Obligations.ResetAndLoadedValues := by
  refine ⟨rfl, fun p => ⟨State.resetWith_reg p, rfl, rfl, Memory.empty_len?, rfl, rfl, rfl,
    fun bytes hwhole hlen hfits => ?_⟩⟩
  exact ⟨_, step_of_accepted_image rfl rfl rfl hwhole (by omega) hfits, RegFile.get_zero, rfl, rfl,
    imageMemory_len?_zero _ bytes, fun _ => imageMemory_len?_pos _ bytes, hintIds_length _,
    fun _ => hintIds_getElem?, rfl, rfl⟩

/-- Settles O36. -/
theorem imageLoadInstallsProgram : Obligations.ImageLoadInstallsProgram := by
  intro s bytes hline himage
  refine ⟨fun hidle hbad => ?malformed, fun hidle hwhole hlen hfits => ?oversized,
    fun hidle hwhole hlen hfits => ?accepted, fun hidle => ?refused⟩
  case malformed =>
    exact ⟨_, step_of_malformed_image hline himage hidle hbad, frozenWith_toFatal s.dropImage _⟩
  case oversized =>
    exact ⟨_, step_of_oversized_image hline himage hidle hwhole hlen hfits, frozenWith_toFatal s.dropImage _⟩
  case accepted =>
    exact ⟨_, step_of_accepted_image hline himage hidle hwhole hlen hfits, rfl, rfl, RegFile.get_zero, rfl,
      rfl, imageMemory_len?_zero _ bytes,
      fun _ hk => ⟨_, imageMemory_word?_zero _ hk, wordOfBytes_toNat _ _ _ _⟩,
      fun _ => imageMemory_len?_pos _ bytes, rfl⟩
  case refused =>
    have hstep : step s = .next s.dropImage := by
      rw [step_of_image hline himage, takeImage_of_not_idle hidle]
    exact ⟨_, hstep, ⟨rfl, rfl, rfl⟩, rfl, fun _ _ => rfl, ⟨rfl, fun _ => rfl, fun _ _ => rfl⟩, ⟨rfl, rfl⟩,
      rfl⟩

theorem State.withImage_cycling {s : State} (hline : s.host.resetLine = false) (bytes : List Byte) :
    (s.withImage bytes).cycling := ⟨rfl, hline, rfl⟩

/-- Settles O37: the loaded block stands at pc 0, which is the end of an empty image and a word of any other. -/
theorem firstCycleAfterLoad : Obligations.FirstCycleAfterLoad := by
  intro s bytes hidle hline himage hwhole hlen hfits
  have hcyc := State.withImage_cycling hline bytes
  refine ⟨_, step_of_accepted_image hline himage hidle hwhole hlen hfits, fun hnil => ?empty, fun hne => ?word⟩
  case empty =>
    subst hnil
    obtain ⟨u, hu, hended, _⟩ :=
      (endCheckEndsTheRun _ 0 hcyc (imageMemory_len?_zero _ []) (Nat.zero_le _)).2 (.inl rfl)
    exact ⟨u, hu, hended⟩
  case word =>
    have hpos := List.length_pos_iff.2 hne
    have hword := imageMemory_word?_zero s.params.freeListHint (bytes := bytes) (k := 0) (by omega)
    exact ⟨_, ⟨hcyc, hword⟩, hword, fun i hi => step_of_fetches_ok ⟨hcyc, hword⟩ hi⟩

/-! ### The fetch after a write to segment 0 (R267, R268) -/

/-- An operation on the segment table leaves the block cycling. -/
theorem SameOutsideAllocator.cycling {s t : State} (h : SameOutsideAllocator s t) (hs : s.cycling) :
    t.cycling := by
  obtain ⟨hrun, hline, himage⟩ := hs
  exact ⟨h.status.trans hrun, h.host ▸ hline, h.host ▸ himage⟩

/-- Settles O49: the store's step leaves the pc at the stored word. -/
theorem storeToNextWordIsExecutedNext : Obligations.StoreToNextWordIsExecutedNext := by
  intro s w a b c n i hs hfetch hdec ha hb hn hlt hi
  have hpc : (s.pc + 1).toNat = s.pc.toNat + 1 := toNat_pc_add_one hs.memWf hfetch.2
  have hlen : (s.setPc (s.pc + 1)).mem.len? (s.reg a).toNat = some n := ha ▸ hn
  have hoff : (s.reg b).toNat < n := by rwa [hb, hpc]
  obtain ⟨t, ht⟩ := segWrite_of_len? hlen hoff (s.reg c)
  have hframe := segWrite_frame ht
  have htpc : t.pc = s.pc + 1 := hframe.pc
  have hnext : t.fetches (s.reg c) := by
    refine ⟨hframe.cycling hfetch.1, ?_⟩
    rw [segWrite_word? (s := s.setPc (s.pc + 1)) hs.memWf ht, if_pos]
    exact ⟨by rw [ha]; rfl, by rw [hb, htpc]⟩
  refine ⟨t, (step_of_fetches_ok hfetch hdec).trans (exec_sstore_of_segWrite ht), hnext, ?_⟩
  have hpc2 : t.pc + 1 = s.pc + 2 := by
    rw [htpc, BitVec.add_assoc]
    rfl
  rw [step_of_fetches_ok hnext hi, hpc2]
  rfl

/-- Settles O50: the new segment 0 holds the source's words, and the pc is x[C]. -/
theorem fetchAfterLoadpReadsNewProgram : Obligations.FetchAfterLoadpReadsNewProgram := by
  intro s w v b c n hs hfetch hdec h0 hn hfits hv
  obtain ⟨t, ht⟩ := segReplaceZero_completes (s := s.setPc (s.pc + 1)) hn hfits
  exact ⟨t.setPc (s.reg c),
    (step_of_fetches_ok hfetch hdec).trans (exec_loadp_of_segReplaceZero (s := s.setPc (s.pc + 1)) h0 ht c),
    (segReplaceZero_frame ht).cycling hfetch.1, ((segReplaceZero_copied ht (.inl rfl)).2 _).trans hv⟩

end Sys2Proof.Machine
